-- ==== Sys2Proof/Word.lean ====
section
/-! DEFINITION. The two word types of TOTPCORE: an 8-bit cell and a 32-bit register or SHA-1 word. -/

namespace Sys2Proof

/-- A byte is 8 bits: one buffer cell (R7, R12). -/
abbrev Byte := BitVec 8

/-- A register, a command word or a SHA-1 word: 32 bits (R9, R70, R111). -/
abbrev Word := BitVec 32

end Sys2Proof
end

