-- ==== Sys2Proof/Syntax.lean ====
section
/-! DEFINITION. The six commands of the opcode table. -/

namespace Sys2Proof

/-- The commands of R72, one constructor per row of spec/opcode_table.json. No command has an operand field
(R71, R73): every operand is a named register or buffer of the state. -/
inductive Instr where
  /-- `B32DEC`, word 0x00000001 (R98). -/
  | b32dec
  /-- `HMAC`, word 0x00000002 (R121). -/
  | hmac
  /-- `TRUNC`, word 0x00000003 (R142). -/
  | trunc
  /-- `FMT`, word 0x00000004 (R146). -/
  | fmt
  /-- `HOTP`, word 0x00000005 (R161). -/
  | hotp
  /-- `CLR`, word 0x00000006 (R163). -/
  | clr
  deriving DecidableEq, Repr

end Sys2Proof
end

