-- ==== Sys2Proof/Config.lean ====
section
/-! DEFINITION. The implementation parameters and the fixed sizes of the block (00_scope.md section 3).
The spec leaves no value of a computation open (93_implementation_defined.md section 1), so there is no free value here. -/

namespace Sys2Proof.Config

/-- The one parameter an implementation chooses (R5). `TEXT_MAX` is the capacity of `TXT` in characters. -/
structure Params where
  textMax : Nat
  deriving DecidableEq, Repr

/-- R5: "an integer with 8 <= `TEXT_MAX` <= 4096". -/
abbrev Params.Legal (p : Params) : Prop := 8 ≤ p.textMax ∧ p.textMax ≤ 4096

/-- R6: `KEY_MAX` = floor(`TEXT_MAX` * 5 / 8), not an independent parameter. -/
def Params.keyMax (p : Params) : Nat := p.textMax * 5 / 8

/-- R5: "The default taken for this hardware is `TEXT_MAX` = 128." -/
def defaultParams : Params := ⟨128⟩

/-- R7: the digest is 20 bytes. -/
abbrev digestLen : Nat := 20

/-- R7: the code has between 1 and `CODE_MAX` = 10 characters. -/
abbrev codeMax : Nat := 10

/-- R7, R118: the SHA-1 block is 64 bytes. -/
abbrev shaBlock : Nat := 64

end Sys2Proof.Config
end

