-- ==== Sys2Proof/WellFormed.lean ====
section
/-! DEFINITION. Well-formedness: of a command (no check: R73 gives it no field), of a command word, and of the
implementation parameters. -/

namespace Sys2Proof

/-- Every command is well formed: R73, "No command carries an immediate, so there is nothing to assemble, extend,
scale or shift." -/
def Instr.wf : Instr → Bool
  | .b32dec => true
  | .hmac => true
  | .trunc => true
  | .fmt => true
  | .hotp => true
  | .clr => true

/-- R75: bits 31:8 of a legal command word are 0. -/
def wordReservedZero (w : Word) : Bool := w.toNat / 256 == 0

/-- R74: `op` = 0x00 and every `op` from 0x07 to 0xFF have no row. -/
def wordOpHasRow (w : Word) : Bool := 1 ≤ w.toNat % 256 && w.toNat % 256 ≤ 6

/-- R76: a word is one of the six of R72 or it is illegal. -/
def wordWf (w : Word) : Bool := wordReservedZero w && wordOpHasRow w

/-- R5: the parameter's range. -/
def paramsWf (p : Config.Params) : Bool := decide p.Legal

end Sys2Proof
end

