-- ==== Sys2Proof/Decode.lean ====
section
/-! DEFINITION. The decoder of a command word, total and rejecting by name, and the encoder (30_encoding.md). -/

namespace Sys2Proof

/-- Why a command word is illegal. -/
inductive IllegalWord where
  /-- R75: one of bits 31:8 is non-zero, whatever `op` is. -/
  | reservedBits
  /-- R74: `op` is 0x00 or 0x07 to 0xFF. -/
  | reservedOpcode
  deriving DecidableEq, Repr

/-- What the decoder reads from a command word. -/
inductive Decoded where
  | command (i : Instr)
  | illegal (r : IllegalWord)
  deriving DecidableEq, Repr

/-- R71: `op`, bits 7:0. -/
def opField (w : Word) : BitVec 8 := w.extractLsb' 0 8

/-- R71: `rsv`, bits 31:8. -/
def rsvField (w : Word) : BitVec 24 := w.extractLsb' 8 24

/-- R72: the opcode map. -/
def decodeOp (op : BitVec 8) : Option Instr :=
  if op = 0x01 then some .b32dec
  else if op = 0x02 then some .hmac
  else if op = 0x03 then some .trunc
  else if op = 0x04 then some .fmt
  else if op = 0x05 then some .hotp
  else if op = 0x06 then some .clr
  else none

/-- R72, "Decoding": reserved bits are looked at first, then `op` selects the row. -/
def decode (w : Word) : Decoded :=
  if rsvField w ≠ 0 then .illegal .reservedBits
  else
    match decodeOp (opField w) with
    | some i => .command i
    | none => .illegal .reservedOpcode

/-- R72: the opcode of each command. -/
def opcode : Instr → BitVec 8
  | .b32dec => 0x01
  | .hmac => 0x02
  | .trunc => 0x03
  | .fmt => 0x04
  | .hotp => 0x05
  | .clr => 0x06

/-- R71: the command word, `rsv` = 0 above `op`. -/
def encode (i : Instr) : Word := (0 : BitVec 24) ++ opcode i

/-- The decoder's answer as an option. -/
def Decoded.instr? : Decoded → Option Instr
  | .command i => some i
  | .illegal _ => none

/-- The instruction read from a row's bits, numbered as spec/opcode_table.json numbers them. A command is one
32-bit number (R70) that is moved whole and has no byte order (R58), so the bits are the word. -/
def decodeTableWord (nbits w : Nat) : Option Instr :=
  if nbits ≤ 32 then (decode (BitVec.ofNat 32 (w % 2 ^ nbits))).instr? else none

end Sys2Proof
end

