-- ==== Sys2Proof/Machine/State.lean ====
section
/-! DEFINITION. The state of TOTPCORE as plain data (10_state.md), the events its agents bring (00_scope.md section 5),
and the state after reset (R43). -/

namespace Sys2Proof.Machine

/-! ### Bus transactions (R52) -/

/-- R52: `n` in {1, 2, 4}. -/
inductive Size where
  | one
  | two
  | four
  deriving DecidableEq, Repr

/-- R52: `v` is an unsigned `8n`-bit number. -/
inductive WriteData where
  | byte (v : BitVec 8)
  | half (v : BitVec 16)
  | word (v : BitVec 32)
  deriving DecidableEq, Repr

/-- R52: one bus transaction; `off` is an offset 0x0000 to 0x3FFF of the window (R50). -/
inductive Transaction where
  /-- `MemRead(off, n)`. -/
  | read (off : BitVec 14) (size : Size)
  /-- `MemWrite(off, n, v)`. -/
  | write (off : BitVec 14) (data : WriteData)
  deriving DecidableEq, Repr

/-- R52: the response of a transaction. -/
inductive Response where
  | okay
  | error
  deriving DecidableEq, Repr

/-- R52: what a transaction returns: a response, and for a read a value (log 2, log 10). -/
inductive Reply where
  | read (r : Response) (v : Word)
  | write (r : Response)
  deriving DecidableEq, Repr

/-- R13: what can happen next: a host step, the core's chance to complete, or a hard reset (log 1). -/
inductive Event where
  | bus (t : Transaction)
  | core
  | hardReset
  deriving DecidableEq, Repr

/-! ### Registers with fields -/

/-- R24: the eight used bits of `STATUS`; bits 31:8 are reserved and not stored (log 5). -/
structure Status where
  busy : Bool
  done : Bool
  err : Bool
  keyvalid : Bool
  dvalid : Bool
  tvalid : Bool
  cvalid : Bool
  ovr : Bool
  deriving DecidableEq, Repr

/-- R26: the used bits of `CFG`. -/
structure Cfg where
  digits : BitVec 4
  ie : Bool
  deriving DecidableEq, Repr

/-- R30: the fields of `ERRINFO`. -/
structure ErrInfo where
  code : BitVec 4
  chr : Byte
  pos : BitVec 16
  deriving DecidableEq, Repr

/-- R191: the fault codes a command can raise; `E_NONE` is the absence of one. -/
inductive FaultCode where
  | eB32char
  | eB32empty
  | eLen
  | eNokey
  | eSeq
  | eDigits
  | eCmd
  deriving DecidableEq, Repr

/-- R190: what `raise Fault(code, chr, pos)` carries. -/
structure Raise where
  code : FaultCode
  chr : Byte
  pos : BitVec 16
  deriving DecidableEq, Repr

/-! ### The state -/

/-- The window's byte cells: (window offset, byte) pairs, offsets strictly rising, no entry equal to what an unlisted
cell reads as (log 4). -/
abbrev Memory := List Host.Cell

/-- R20: the complete architected state, and two fields of the model's own (`schedule`, `reply`). -/
structure State where
  /-- R24. -/
  status : Status
  /-- R26. -/
  cfg : Cfg
  /-- R27: `TXTLEN` bits 15:0. -/
  txtlen : BitVec 16
  /-- R28: `CTR` bits 63:32. -/
  ctrHi : Word
  /-- R28: `CTR` bits 31:0. -/
  ctrLo : Word
  /-- R29: `KEYLEN` bits 15:0. -/
  keylen : BitVec 16
  /-- R30. -/
  errinfo : ErrInfo
  /-- R31: `TRUNC` bits 30:0. -/
  trunc : BitVec 31
  /-- R32: `CODEVAL` bits 30:0. -/
  codeval : BitVec 31
  /-- R33: `CODELEN` bits 3:0. -/
  codelen : BitVec 4
  /-- R40: the command word from issue to completion. -/
  cmdlatch : Word
  /-- R34: what `PARAM` reports; constant (log 3). -/
  params : Config.Params
  /-- R35 to R38: the cells of `TXT`, `KEY`, `DIGEST`, `CODE`, by window offset (log 4). -/
  mem : Memory
  /-- The model's own: the events to come, first one next (log 1). -/
  schedule : List Event
  /-- The model's own: the answer to the last bus transaction (log 2). -/
  reply : Option Reply
  deriving DecidableEq, Repr

/-- Reasons the machine stops with a fault. There is none: R18, "The block itself never halts and has no final state",
and a command's fault (R190) is the next state of R201, not a stop. No definition raises one; safe. -/
inductive Fault where
  deriving DecidableEq, Repr

/-- Reasons an instruction has no meaning in the model. -/
inductive Refusal where
  /-- Raised only by an arm of `exec` whose instruction has no meaning yet; safe. No arm raises it now. -/
  | notModelled (mnemonic : String)
  deriving DecidableEq, Repr

/-- R43: the reset value of every piece of state, for a block built with the parameters `p`. -/
def State.resetWith (p : Config.Params) : State where
  status := ⟨false, false, false, false, false, false, false, false⟩
  cfg := ⟨6, false⟩
  txtlen := 0
  ctrHi := 0
  ctrLo := 0
  keylen := 0
  errinfo := ⟨0, 0, 0⟩
  trunc := 0
  codeval := 0
  codelen := 0
  cmdlatch := 0
  params := p
  mem := []
  schedule := []
  reply := none

/-- The machine right after hard reset (R43), built with the default `TEXT_MAX` (R5). -/
def State.reset : State := State.resetWith Config.defaultParams

end Sys2Proof.Machine
end

