-- ==== Sys2Proof/Machine/Flags.lean ====
section
/-! DEFINITION. The flags of `STATUS`, the register images with their reserved bits, the fault numbers, `irq`. -/

namespace Sys2Proof.Machine

/-- One flag at bit `i` of a 32-bit register. -/
def flagBit (b : Bool) (i : Nat) : Word := (BitVec.ofBool b).setWidth 32 <<< i

/-- R24: the stored flags as a register, bits 31:8 zero. -/
def Status.word (f : Status) : Word :=
  flagBit f.busy 0 ||| flagBit f.done 1 ||| flagBit f.err 2 ||| flagBit f.keyvalid 3 ||| flagBit f.dvalid 4 |||
    flagBit f.tvalid 5 ||| flagBit f.cvalid 6 ||| flagBit f.ovr 7

/-- R56 case 5: `STATUS` as it reads in the busy window, `(OVR << 7) | 1`. -/
def Status.busyWord (f : Status) : Word := flagBit f.ovr 7 ||| 1

/-- R55 case 5: a write clears each of `DONE`, `ERR`, `OVR` whose written bit is 1 and nothing else. -/
def Status.writeOneToClear (f : Status) (v : Word) : Status :=
  { f with done := f.done && !v.getLsbD 1, err := f.err && !v.getLsbD 2, ovr := f.ovr && !v.getLsbD 7 }

/-- R14: the flags at a command issue. -/
def Status.issued (f : Status) : Status := { f with busy := true, done := false, err := false }

/-- R15: the flags at a completion without fault. -/
def Status.completed (f : Status) : Status := { f with busy := false, done := true }

/-- R201: the flags at a faulting completion; `DONE` stays as the issue left it. -/
def Status.faulted (f : Status) : Status := { f with busy := false, err := true }

/-- R26, R57: `CFG` as a register, reserved bits zero. -/
def Cfg.word (c : Cfg) : Word := flagBit c.ie 8 ||| c.digits.setWidth 32

/-- R55 case 6: `CFG.DIGITS <- v[3:0]`, `CFG.IE <- v[8]`. -/
def Cfg.ofWord (v : Word) : Cfg := ⟨v.extractLsb' 0 4, v.getLsbD 8⟩

/-- R30, R201: `ERRINFO` as a register, `(pos << 16) | (chr << 8) | code`. -/
def ErrInfo.word (e : ErrInfo) : Word :=
  e.pos.setWidth 32 <<< 16 ||| e.chr.setWidth 32 <<< 8 ||| e.code.setWidth 32

/-- R191: `E_NONE`, nothing recorded. -/
def ErrInfo.none : ErrInfo := ⟨0, 0, 0⟩

/-- R191: the numbers of the fault codes. -/
def FaultCode.number : FaultCode → BitVec 4
  | .eB32char => 1
  | .eB32empty => 2
  | .eLen => 3
  | .eNokey => 4
  | .eSeq => 5
  | .eDigits => 6
  | .eCmd => 7

/-- R201: what a fault leaves in `ERRINFO`. -/
def Raise.info (r : Raise) : ErrInfo := ⟨r.code.number, r.chr, r.pos⟩

/-- A fault that records no character and no position (R191: 0, 0 for every code but `E_B32CHAR`). -/
def Raise.plain (c : FaultCode) : Raise := ⟨c, 0, 0⟩

/-- R34: `PARAM` = `{KEY_MAX[15:0], TEXT_MAX[15:0]}`. -/
def paramWord (p : Config.Params) : Word := BitVec.ofNat 16 p.keyMax ++ BitVec.ofNat 16 p.textMax

/-- R42, R205: the interrupt output, a function of the state. -/
def State.irq (s : State) : Bool := s.cfg.ie && !s.status.busy && (s.status.done || s.status.err)

end Sys2Proof.Machine
end

