-- ==== Sys2Proof/Machine/Bytes.lean ====
section
/-! DEFINITION. Byte order and bit-field helpers of 00_scope.md section 4. -/

namespace Sys2Proof.Machine

/-- R10: `be32(b)` of four bytes, the first the most significant. -/
def be32 (b0 b1 b2 b3 : Byte) : Word :=
  b0.setWidth 32 <<< 24 ||| b1.setWidth 32 <<< 16 ||| b2.setWidth 32 <<< 8 ||| b3.setWidth 32

/-- R10: `BE32(w)`, most significant byte first. -/
def bytesOfWord (w : Word) : List Byte :=
  [w.extractLsb' 24 8, w.extractLsb' 16 8, w.extractLsb' 8 8, w.extractLsb' 0 8]

/-- R10: `BE64(v)`, most significant byte first. -/
def bytesOfCounter (v : BitVec 64) : List Byte :=
  bytesOfWord (v.extractLsb' 32 32) ++ bytesOfWord (v.extractLsb' 0 32)

/-- R9: `ROTL_n(x)` on 32 bits, for 0 < n < 32. -/
def rotl (n : Nat) (x : Word) : Word := x <<< n ||| x >>> (32 - n)

/-- R119: bytewise XOR of two sequences. -/
def xorBytes (a b : List Byte) : List Byte := List.zipWith (· ^^^ ·) a b

/-- R10: the 32-bit words of a byte sequence, four bytes each. -/
def wordsOfBytes : List Byte → List Word
  | b0 :: b1 :: b2 :: b3 :: rest => be32 b0 b1 b2 b3 :: wordsOfBytes rest
  | _ => []

end Sys2Proof.Machine
end

