-- ==== Sys2Proof/Machine/Memory.lean ====
section
/-! DEFINITION. The operations over the window's byte cells, each keeping the canonical form (log 4). -/

namespace Sys2Proof.Machine

/-- What an unlisted cell reads as: R35 to R38 and R43 give every buffer cell the reset value 0x00. -/
def Memory.blank : Byte := 0x00

/-- The canonical form: offsets strictly rising, and no entry equal to what an unlisted cell reads as. -/
abbrev Memory.wf (m : Memory) : Prop :=
  m.Pairwise (fun a b => a.1 < b.1) ∧ ∀ c ∈ m, c.2 ≠ Memory.blank

/-- Read one cell. -/
def Memory.get : Memory → Nat → Byte
  | [], _ => Memory.blank
  | (k, v) :: rest, a => if k = a then v else Memory.get rest a

/-- Write 0x00 to the `n` cells from `base`: a zero cell is an unlisted cell. -/
def Memory.zero (m : Memory) (base n : Nat) : Memory :=
  m.filter (fun c => !(decide (base ≤ c.1) && decide (c.1 < base + n)))

/-- List the byte `b` at `a`, in its place by offset. -/
def Memory.insert : Memory → Nat → Byte → Memory
  | [], a, b => [(a, b)]
  | (k, v) :: rest, a, b =>
    if a < k then (a, b) :: (k, v) :: rest
    else if a = k then (a, b) :: rest
    else (k, v) :: Memory.insert rest a b

/-- Write one cell. -/
def Memory.set (m : Memory) (a : Nat) (b : Byte) : Memory :=
  if b = Memory.blank then Memory.zero m a 1 else Memory.insert m a b

/-- Write a byte sequence to consecutive cells from `base`, in ascending order. -/
def Memory.store : Memory → Nat → List Byte → Memory
  | m, _, [] => m
  | m, base, b :: bs => Memory.store (Memory.set m base b) (base + 1) bs

/-- Read `n` consecutive cells from `base`. -/
def Memory.load (m : Memory) (base : Nat) : Nat → List Byte
  | 0 => []
  | n + 1 => Memory.get m base :: Memory.load m (base + 1) n

end Sys2Proof.Machine
end

