-- ==== Sys2Proof/Machine/Map.lean ====
section
/-! DEFINITION. The address map of the window (20_memory.md, R51, R53, R54). -/

namespace Sys2Proof.Machine

/-- The twelve registers of R51. -/
inductive Reg where
  | cmd
  | status
  | cfg
  | txtlen
  | ctrHi
  | ctrLo
  | keylen
  | errinfo
  | trunc
  | codeval
  | codelen
  | param
  deriving DecidableEq, Repr

/-- The four buffers of R51. -/
inductive Buffer where
  | digest
  | code
  | txt
  | key
  deriving DecidableEq, Repr

/-- What a mapped offset names. -/
inductive Location where
  | reg (r : Reg)
  | cell (b : Buffer) (i : Nat)
  deriving DecidableEq, Repr

/-- R51: the offset of a register. -/
def Reg.offset : Reg → Nat
  | .cmd => 0x0000
  | .status => 0x0004
  | .cfg => 0x0008
  | .txtlen => 0x000C
  | .ctrHi => 0x0010
  | .ctrLo => 0x0014
  | .keylen => 0x0018
  | .errinfo => 0x001C
  | .trunc => 0x0020
  | .codeval => 0x0024
  | .codelen => 0x0028
  | .param => 0x002C

/-- R51: the offset of a buffer's first cell. -/
def Buffer.base : Buffer → Nat
  | .digest => 0x0040
  | .code => 0x0060
  | .txt => 0x1000
  | .key => 0x2000

/-- R35 to R38: the number of cells of a buffer. -/
def Buffer.size (p : Config.Params) : Buffer → Nat
  | .digest => Config.digestLen
  | .code => Config.codeMax
  | .txt => p.textMax
  | .key => p.keyMax

/-- The registers in the order of their offsets. -/
def Reg.all : List Reg :=
  [.cmd, .status, .cfg, .txtlen, .ctrHi, .ctrLo, .keylen, .errinfo, .trunc, .codeval, .codelen, .param]

/-- The register at exactly this offset (R53), if there is one. -/
def Reg.at? (off : Nat) : Option Reg := Reg.all.find? fun r => r.offset == off

/-- The cell of buffer `b` that stands at this offset, if it is one of the buffer's. -/
def Buffer.cellAt? (p : Config.Params) (b : Buffer) (off : Nat) : Option Location :=
  if b.base ≤ off ∧ off < b.base + b.size p then some (.cell b (off - b.base)) else none

/-- R51, R53, R54: the location a transaction of this size names at this offset, or none where it is refused: a
register takes only 4-byte accesses at exactly its offset, a cell only 1-byte accesses, a 2-byte access nothing. -/
def locate (p : Config.Params) (off : Nat) : Size → Option Location
  | .four => (Reg.at? off).map .reg
  | .two => none
  | .one =>
    (Buffer.cellAt? p .digest off).or <| (Buffer.cellAt? p .code off).or <|
      (Buffer.cellAt? p .txt off).or (Buffer.cellAt? p .key off)

/-- R55 case 3: the read-only locations. -/
def Location.readOnly : Location → Bool
  | .reg .cmd | .reg .status | .reg .cfg | .reg .txtlen | .reg .ctrHi | .reg .ctrLo => false
  | .reg .keylen | .reg .errinfo | .reg .trunc | .reg .codeval | .reg .codelen | .reg .param => true
  | .cell .txt _ => false
  | .cell .digest _ | .cell .code _ | .cell .key _ => true

end Sys2Proof.Machine
end

