-- ==== Sys2Proof/Machine/Operands.lean ====
section
/-! DEFINITION. The operands of the commands, fixed by name per command (R73), and the stores to a buffer (R67, R166). -/

namespace Sys2Proof.Machine

/-- One cell of the window by its offset; a byte of the block's memory. -/
def State.readByte (s : State) (off : Nat) : Byte := Memory.get s.mem off

/-- Cell `i` of buffer `b` (R11: `TXT[i]`, `KEY[i]`, `DIGEST[i]`, `CODE[i]`). -/
def State.cell (s : State) (b : Buffer) (i : Nat) : Byte := s.readByte (b.base + i)

/-- The slice `b[0..n]` of a buffer. -/
def State.slice (s : State) (b : Buffer) (n : Nat) : List Byte := Memory.load s.mem b.base n

/-- `TXT[0..TXTLEN]`, the operand of `B32DEC` (R73). -/
def State.text (s : State) : List Byte := s.slice .txt s.txtlen.toNat

/-- `KEY[0..KEYLEN]`, the operand of `HMAC` (R73). -/
def State.keyBytes (s : State) : List Byte := s.slice .key s.keylen.toNat

/-- R28: `CTR = {CTR_HI, CTR_LO}`. -/
def State.counter (s : State) : BitVec 64 := s.ctrHi ++ s.ctrLo

/-- R110: `MSG = BE64(CTR)`, always eight bytes. -/
def State.message (s : State) : List Byte := bytesOfCounter s.counter

/-- `DIGEST[0..20]`, the operand of `TRUNC` (R73). -/
def State.digestBytes (s : State) : List Byte := s.slice .digest Config.digestLen

/-- Write a byte sequence to a buffer from its cell 0. -/
def State.storeBuffer (s : State) (b : Buffer) (bytes : List Byte) : State :=
  { s with mem := Memory.store s.mem b.base bytes }

/-- Write one cell of a buffer. -/
def State.setCell (s : State) (b : Buffer) (i : Nat) (v : Byte) : State :=
  { s with mem := Memory.set s.mem (b.base + i) v }

/-- Write 0x00 to every cell of a buffer. -/
def State.zeroBuffer (s : State) (b : Buffer) : State :=
  { s with mem := Memory.zero s.mem b.base (b.size s.params) }

end Sys2Proof.Machine
end

