-- ==== Sys2Proof/Machine/Ops.lean ====
section
/-! DEFINITION. The shared operations: invalidation of a result and everything downstream (R39), command issue (R14),
completion (R15), the entry of a fault (R201) and the ways its report is cleared (R203). -/

namespace Sys2Proof.Machine

/-! ### Invalidation, R39 -/

/-- R39: "invalidate `CODE`" (`CVALID`, `CODEVAL`, `CODELEN`, `CODE[0..10]` <- 0). -/
def State.invalidateCode (s : State) : State :=
  { s.zeroBuffer .code with status := { s.status with cvalid := false }, codeval := 0, codelen := 0 }

/-- R39: "invalidate `TRUNC` and downstream". -/
def State.invalidateTrunc (s : State) : State :=
  { s.invalidateCode with status := { s.invalidateCode.status with tvalid := false }, trunc := 0 }

/-- R39: "invalidate `DIGEST` and downstream". -/
def State.invalidateDigest (s : State) : State :=
  { s.invalidateTrunc.zeroBuffer .digest with status := { s.invalidateTrunc.status with dvalid := false } }

/-- R39: "invalidate `KEY` and downstream". -/
def State.invalidateKey (s : State) : State :=
  { s.invalidateDigest.zeroBuffer .key with
    status := { s.invalidateDigest.status with keyvalid := false }, keylen := 0 }

/-! ### Issue, completion, fault entry -/

/-- R14: a command issue: `CMDLATCH <- v`, `BUSY <- 1`, `DONE <- 0`, `ERR <- 0`, `ERRINFO <- 0`, nothing else. This is
also one of the two ways a fault report is cleared (R203). -/
def State.issue (s : State) (v : Word) : State :=
  { s with cmdlatch := v, status := s.status.issued, errinfo := ErrInfo.none }

/-- R15: completion without fault. -/
def State.completeOk (s : State) : State := { s with status := s.status.completed }

/-- R201: the entry of a fault, at the completion of the command that raised it. -/
def State.enterFault (s : State) (r : Raise) : State :=
  { s with status := s.status.faulted, errinfo := r.info }

/-- R203, R55 case 5: the host clears the report flags by writing 1; `ERRINFO` stays. There is no return instruction. -/
def State.acknowledge (s : State) (v : Word) : State :=
  { s with status := s.status.writeOneToClear v }

/-! ### The body of a command -/

/-- How a command's rule ended: at its last line, or at its first `raise` with everything written before it (R11). -/
inductive Body where
  | ended (s : State)
  | raised (s : State) (r : Raise)
  deriving DecidableEq, Repr

/-- Run the next stage unless this one raised (R161: "stopping at the first fault"). -/
def Body.andThen : Body → (State → Body) → Body
  | .ended s, next => next s
  | .raised s r, _ => .raised s r

/-- R15: the completion of a command: with the body's writes, `BUSY <- 0`, and `DONE <- 1` or the fault entry. -/
def Body.finish : Body → State
  | .ended s => s.completeOk
  | .raised s r => s.enterFault r

/-- A command's meaning: its body and its completion, one indivisible next state (R15). -/
def completeWith (b : Body) : Host.Outcome State Fault Refusal := .next b.finish

/-- R74, R75, R198: the completion of an illegal word: `E_CMD`, and nothing else changes. -/
def State.illegalWord (s : State) : State := s.enterFault (.plain .eCmd)

/-- R220, R222: hard reset puts every piece of the block's state at its reset value (R43); `PARAM` is constant (R34);
the events to come are the outside world's and stay (log 1). -/
def State.hardReset (s : State) : State := { State.resetWith s.params with schedule := s.schedule }

end Sys2Proof.Machine
end

