-- ==== Sys2Proof/Machine/Bus.lean ====
section
/-! DEFINITION. The host's bus transactions (20_memory.md, R52 to R57). -/

namespace Sys2Proof.Machine

/-- R52: `n` of a write. -/
def WriteData.size : WriteData → Size
  | .byte _ => .one
  | .half _ => .two
  | .word _ => .four

/-- The written value as a 32-bit number. -/
def WriteData.value : WriteData → Word
  | .byte v => v.setWidth 32
  | .half v => v.setWidth 32
  | .word v => v

/-- R56 cases 2 to 4, 6 and 8: the value a location reads as while the block is idle. A cell's byte is the low byte
of the value (log 10). -/
def State.idleValue (s : State) : Location → Word
  | .reg .cmd => 0
  | .reg .status => s.status.word
  | .reg .cfg => s.cfg.word
  | .reg .txtlen => s.txtlen.setWidth 32
  | .reg .ctrHi => s.ctrHi
  | .reg .ctrLo => s.ctrLo
  | .reg .keylen => s.keylen.setWidth 32
  | .reg .errinfo => s.errinfo.word
  | .reg .trunc => s.trunc.setWidth 32
  | .reg .codeval => s.codeval.setWidth 32
  | .reg .codelen => s.codelen.setWidth 32
  | .reg .param => paramWord s.params
  | .cell b i => (s.cell b i).setWidth 32

/-- R56 case 7: the locations that read 0 in the busy window. -/
def Location.gated : Location → Bool
  | .reg .keylen | .reg .errinfo | .reg .trunc | .reg .codeval | .reg .codelen => true
  | .reg .cmd | .reg .status | .reg .cfg | .reg .txtlen | .reg .ctrHi | .reg .ctrLo | .reg .param => false
  | .cell .txt _ => false
  | .cell .digest _ | .cell .code _ | .cell .key _ => true

/-- R56: the value an accepted read returns. -/
def State.readValue (s : State) (loc : Location) : Word :=
  if s.status.busy = true ∧ loc = .reg .status then s.status.busyWord
  else if s.status.busy = true ∧ loc.gated = true then 0
  else s.idleValue loc

/-- R56: the reply to `MemRead(off, n)`; case 1 answers `ERROR` and 0. -/
def State.busRead (s : State) (off : Nat) (size : Size) : Reply :=
  match locate s.params off size with
  | none => .read .error 0
  | some loc => .read .okay (s.readValue loc)

/-- R55 cases 3 to 9: the effect of an accepted write while the block is idle. -/
def State.idleWrite (s : State) (v : Word) (loc : Location) : State :=
  if loc.readOnly then s
  else
    match loc with
    | .reg .cmd => s.issue v
    | .reg .status => s.acknowledge v
    | .reg .cfg => { s with cfg := Cfg.ofWord v }
    | .reg .txtlen => { s with txtlen := v.extractLsb' 0 16 }
    | .reg .ctrHi => { s with ctrHi := v }
    | .reg .ctrLo => { s with ctrLo := v }
    | .reg _ => s
    | .cell b i => s.setCell b i (v.extractLsb' 0 8)

/-- R55 case 2, R208: a write dropped in the busy window sets `OVR`. -/
def State.dropWrite (s : State) : State := { s with status := { s.status with ovr := true } }

/-- R55: the effect of `MemWrite(off, n, v)` on the block, and its response. -/
def State.busWrite (s : State) (off : Nat) (data : WriteData) : State × Response :=
  match locate s.params off data.size with
  | none => (s, .error)
  | some loc => if s.status.busy then (s.dropWrite, .okay) else (s.idleWrite data.value loc, .okay)

/-- R14: one host step: the transaction's effect, with its reply in the answer port (log 2). -/
def State.transact (s : State) : Transaction → State
  | .read off size => { s with reply := some (s.busRead off.toNat size) }
  | .write off data =>
    { (s.busWrite off.toNat data).1 with reply := some (.write (s.busWrite off.toNat data).2) }

end Sys2Proof.Machine
end

