-- ==== Sys2Proof/Machine/Base32.lean ====
section
/-! DEFINITION. The Base32 decoder and the `B32DEC` command (40_base32.md). -/

namespace Sys2Proof.Machine

/-- R12: the padding character `'='`. -/
def padChar : Byte := 0x3D

/-- R91: the case fold, ASCII `a` to `z` only. -/
def foldCase (c : Byte) : Byte := if 0x61 ≤ c ∧ c ≤ 0x7A then c - 0x20 else c

/-- R93: the 5-bit value of a cell, or none for a cell outside the alphabet. -/
def b32Class (c : Byte) : Option (BitVec 5) :=
  let f := foldCase c
  if 0x41 ≤ f ∧ f ≤ 0x5A then some ((f - 0x41).setWidth 5)
  else if 0x32 ≤ f ∧ f ≤ 0x37 then some ((f - 0x18).setWidth 5)
  else none

/-- R92: remove the maximal run of `'='` at the end of the text. -/
def stripPad : List Byte → List Byte
  | [] => []
  | c :: cs =>
    match stripPad cs with
    | [] => if c = padChar then [] else [c]
    | r :: rs => c :: r :: rs

/-- R94: `Ok(out)` or `Err(chr, pos)`. -/
inductive B32Result where
  | ok (out : List Byte)
  | err (chr : Byte) (pos : Nat)
  deriving DecidableEq, Repr

/-- R94: the loop over the stripped text, left to right. `i` is the index of the next character, `acc` holds the
`nbits` pending bits, `out` the bytes emitted so far. -/
def b32Loop : List Byte → Nat → Nat → Nat → List Byte → B32Result
  | [], _, _, _, out => .ok out
  | c :: cs, i, acc, nbits, out =>
    match b32Class c with
    | none => .err c i
    | some v =>
      let acc' := acc <<< 5 ||| v.toNat
      let nbits' := nbits + 5
      if 8 ≤ nbits' then
        b32Loop cs (i + 1) (acc' &&& (1 <<< (nbits' - 8) - 1)) (nbits' - 8)
          (out ++ [BitVec.ofNat 8 (acc' >>> (nbits' - 8) &&& 0xFF)])
      else b32Loop cs (i + 1) acc' nbits' out

/-- R94: `B32DECODE(t)`; no pending bits at the start of every call. -/
def b32Decode (t : List Byte) : B32Result := b32Loop (stripPad t) 0 0 0 []

/-! ### The encoder of R102, a test fixture and no part of the block -/

/-- R90: the character of a 5-bit value. -/
def b32Char (v : BitVec 5) : Byte := if v.toNat < 26 then v.setWidth 8 + 0x41 else v.setWidth 8 + 0x18

/-- The bits of a byte sequence, most significant first. -/
def bitsOfBytes (b : List Byte) : List Bool :=
  b.flatMap fun x => [x.getLsbD 7, x.getLsbD 6, x.getLsbD 5, x.getLsbD 4, x.getLsbD 3, x.getLsbD 2, x.getLsbD 1,
    x.getLsbD 0]

/-- The 5-bit value of a group of five bits, most significant first. -/
def groupValue (a b c d e : Bool) : BitVec 5 :=
  BitVec.ofBool a ++ BitVec.ofBool b ++ BitVec.ofBool c ++ BitVec.ofBool d ++ BitVec.ofBool e

/-- R102: 5-bit groups, the last one padded with zero bits on the right. -/
def b32Groups : List Bool → List (BitVec 5)
  | a :: b :: c :: d :: e :: rest => groupValue a b c d e :: b32Groups rest
  | [a, b, c, d] => [groupValue a b c d false]
  | [a, b, c] => [groupValue a b c false false]
  | [a, b] => [groupValue a b false false false]
  | [a] => [groupValue a false false false false]
  | [] => []

/-- R102: `B32ENCODE(b)`, with `'='` appended until the length is a multiple of 8. -/
def b32Encode (b : List Byte) : List Byte :=
  let chars := (b32Groups (bitsOfBytes b)).map b32Char
  chars ++ List.replicate ((8 - chars.length % 8) % 8) padChar

/-! ### The command -/

/-- R98: the rule of `B32DEC`. -/
def b32decBody (s : State) : Body :=
  let s0 := s.invalidateKey
  if s0.params.textMax < s0.txtlen.toNat then .raised s0 (.plain .eLen)
  else
    match b32Decode s0.text with
    | .err chr pos => .raised s0 ⟨.eB32char, chr, BitVec.ofNat 16 pos⟩
    | .ok [] => .raised s0 (.plain .eB32empty)
    | .ok (b :: bs) =>
      .ended { s0.storeBuffer .key (b :: bs) with
        keylen := BitVec.ofNat 16 (b :: bs).length, status := { s0.status with keyvalid := true } }

/-- The meaning of `B32DEC` (R98, R15). -/
def execB32dec (s : State) : Host.Outcome State Fault Refusal := completeWith (b32decBody s)

end Sys2Proof.Machine
end

