-- ==== Sys2Proof/Machine/Format.lean ====
section
/-! DEFINITION. Decimal reduction and rendering, and the `FMT` command (42_truncate_format.md section 2). -/

namespace Sys2Proof.Machine

/-- R144: `TRUNC mod 10^n`, exact on integers (R143). -/
def reduceCode (p : BitVec 31) (n : Nat) : Nat := p.toNat % 10 ^ n

/-- R145: `DEC(v, n)`, `n` digit characters, most significant first. -/
def renderDec (v n : Nat) : List Byte :=
  (List.range n).map fun i => BitVec.ofNat 8 (0x30 + v / 10 ^ (n - 1 - i) % 10)

/-- R146: the rule of `FMT`. -/
def fmtBody (s : State) : Body :=
  let s0 := s.invalidateCode
  let n := s0.cfg.digits.toNat
  if s0.status.tvalid = false then .raised s0 (.plain .eSeq)
  else if n = 0 ∨ Config.codeMax < n then .raised s0 (.plain .eDigits)
  else
    .ended { s0.storeBuffer .code (renderDec (reduceCode s0.trunc n) n) with
      codeval := BitVec.ofNat 31 (reduceCode s0.trunc n), codelen := BitVec.ofNat 4 n,
      status := { s0.status with cvalid := true } }

/-- The meaning of `FMT` (R146, R15). -/
def execFmt (s : State) : Host.Outcome State Fault Refusal := completeWith (fmtBody s)

end Sys2Proof.Machine
end

