-- ==== Sys2Proof/Machine/Sha1.lean ====
section
/-! DEFINITION. SHA-1 and HMAC-SHA1 as the spec defines them (41_hmac_sha1.md sections 2 and 3; log 14). -/

namespace Sys2Proof.Machine

/-- R112: the number of zero bytes of the padding, `(55 - len(M)) mod 64`. -/
def padZeros (len : Nat) : Nat := (55 + 64 - len % 64) % 64

/-- R112: `PAD(M) = M || [0x80] || rep(0x00, k) || BE64(8 * len(M))`. -/
def shaPad (m : List Byte) : List Byte :=
  m ++ [0x80] ++ List.replicate (padZeros m.length) 0x00 ++ bytesOfCounter (BitVec.ofNat 64 (8 * m.length))

/-- R113: five chaining values, and R116: the five working variables. -/
structure Chain where
  a : Word
  b : Word
  c : Word
  d : Word
  e : Word
  deriving DecidableEq, Repr

/-- R113: the initial chaining value of every hash. -/
def chainInit : Chain := ⟨0x67452301, 0xEFCDAB89, 0x98BADCFE, 0x10325476, 0xC3D2E1F0⟩

/-- R114: `W[t]` from the sixteen words before it; `ws` is newest first, so `W[t-3]` is its entry 2. -/
def scheduleNext (ws : List Word) : Word :=
  rotl 1 (ws.getD 2 0 ^^^ ws.getD 7 0 ^^^ ws.getD 13 0 ^^^ ws.getD 15 0)

/-- R114: `n` more words in front of a schedule held newest first. -/
def scheduleExtend : Nat → List Word → List Word
  | 0, ws => ws
  | n + 1, ws => scheduleExtend n (scheduleNext ws :: ws)

/-- R114: the schedule `W[0..80]` of one 64-byte block. -/
def schedule (block : List Byte) : List Word := (scheduleExtend 64 (wordsOfBytes block).reverse).reverse

/-- R115: `Ch`. -/
def shaCh (b c d : Word) : Word := (b &&& c) ||| (~~~b &&& d)

/-- R115: `Parity`. -/
def shaParity (b c d : Word) : Word := b ^^^ c ^^^ d

/-- R115: `Maj`. -/
def shaMaj (b c d : Word) : Word := (b &&& c) ||| (b &&& d) ||| (c &&& d)

/-- R115: `f_t`. -/
def roundFn (t : Nat) (b c d : Word) : Word :=
  if t < 20 then shaCh b c d
  else if t < 40 then shaParity b c d
  else if t < 60 then shaMaj b c d
  else shaParity b c d

/-- R115: `K_t`. -/
def roundConst (t : Nat) : Word :=
  if t < 20 then 0x5A827999
  else if t < 40 then 0x6ED9EBA1
  else if t < 60 then 0x8F1BBCDC
  else 0xCA62C1D6

/-- R116: one round. -/
def shaRound (t : Nat) (w : Word) (h : Chain) : Chain where
  a := rotl 5 h.a + roundFn t h.b h.c h.d + h.e + roundConst t + w
  b := h.a
  c := rotl 30 h.b
  d := h.c
  e := h.d

/-- R116: the rounds from number `t` on, one per word of the schedule. -/
def shaRounds : Nat → List Word → Chain → Chain
  | _, [], h => h
  | t, w :: ws, h => shaRounds (t + 1) ws (shaRound t w h)

/-- R116: `COMPRESS(H, B)`. -/
def compress (h : Chain) (block : List Byte) : Chain :=
  let r := shaRounds 0 (schedule block) h
  ⟨h.a + r.a, h.b + r.b, h.c + r.c, h.d + r.d, h.e + r.e⟩

/-- R117: the first `n` blocks of a padded message, in order. -/
def shaBlocks : Nat → List Byte → Chain → Chain
  | 0, _, h => h
  | n + 1, p, h => shaBlocks n (p.drop Config.shaBlock) (compress h (p.take Config.shaBlock))

/-- R117: the digest bytes of a chaining value. -/
def Chain.bytes (h : Chain) : List Byte :=
  bytesOfWord h.a ++ bytesOfWord h.b ++ bytesOfWord h.c ++ bytesOfWord h.d ++ bytesOfWord h.e

/-- R117: `SHA1(M)`. Every hash starts from R113 (R122). -/
def sha1 (m : List Byte) : List Byte :=
  (shaBlocks ((shaPad m).length / Config.shaBlock) (shaPad m) chainInit).bytes

/-- R118: the key block `K0`, 64 bytes: a longer key is hashed first, a shorter one padded with zeros. -/
def keyBlock (k : List Byte) : List Byte :=
  let k' := if Config.shaBlock < k.length then sha1 k else k
  k' ++ List.replicate (Config.shaBlock - k'.length) 0x00

/-- R119: `K0 ^ rep(x, 64)`. -/
def keyPad (k : List Byte) (x : Byte) : List Byte := xorBytes (keyBlock k) (List.replicate Config.shaBlock x)

/-- R119: `HMAC_SHA1(K, m)`, the inner hash first. -/
def hmacSha1 (k m : List Byte) : List Byte := sha1 (keyPad k 0x5C ++ sha1 (keyPad k 0x36 ++ m))

end Sys2Proof.Machine
end

