-- ==== Sys2Proof/Machine/Hmac.lean ====
section
/-! DEFINITION. The `HMAC` command (41_hmac_sha1.md section 4). -/

namespace Sys2Proof.Machine

/-- R121: the rule of `HMAC`. -/
def hmacBody (s : State) : Body :=
  let s0 := s.invalidateDigest
  if s0.status.keyvalid = false then .raised s0 (.plain .eNokey)
  else
    .ended { s0.storeBuffer .digest (hmacSha1 s0.keyBytes s0.message) with
      status := { s0.status with dvalid := true } }

/-- The meaning of `HMAC` (R121, R15). -/
def execHmac (s : State) : Host.Outcome State Fault Refusal := completeWith (hmacBody s)

end Sys2Proof.Machine
end

