-- ==== Sys2Proof/Machine/Truncate.lean ====
section
/-! DEFINITION. Dynamic truncation and the `TRUNC` command (42_truncate_format.md section 1). -/

namespace Sys2Proof.Machine

/-- R140: the offset, the low nibble of the last byte of the digest. -/
def truncOffset (d : List Byte) : Nat := (d.getD 19 0 &&& 0x0F).toNat

/-- R140: the four selected bytes as a 32-bit number, big-endian, the top bit of the first byte masked. -/
def truncWord (d : List Byte) : Word :=
  let off := truncOffset d
  ((d.getD off 0 &&& 0x7F).setWidth 32 <<< 24) ||| ((d.getD (off + 1) 0).setWidth 32 <<< 16) |||
    ((d.getD (off + 2) 0).setWidth 32 <<< 8) ||| (d.getD (off + 3) 0).setWidth 32

/-- R140: `DT(d)`, a 31-bit number. -/
def dynTrunc (d : List Byte) : BitVec 31 := (truncWord d).setWidth 31

/-- R142: the rule of `TRUNC`. -/
def truncBody (s : State) : Body :=
  let s0 := s.invalidateTrunc
  if s0.status.dvalid = false then .raised s0 (.plain .eSeq)
  else .ended { s0 with trunc := dynTrunc s0.digestBytes, status := { s0.status with tvalid := true } }

/-- The meaning of `TRUNC` (R142, R15). -/
def execTrunc (s : State) : Host.Outcome State Fault Refusal := completeWith (truncBody s)

end Sys2Proof.Machine
end

