-- ==== Sys2Proof/Machine/Control.lean ====
section
/-! DEFINITION. The `HOTP` and `CLR` commands (43_hotp_control.md). -/

namespace Sys2Proof.Machine

/-- R160: `HOTP_CODE(K, c, n)`. -/
def hotpCode (k : List Byte) (c : BitVec 64) (n : Nat) : List Byte :=
  renderDec (reduceCode (dynTrunc (hmacSha1 k (bytesOfCounter c))) n) n

/-- R161: the rule of `HOTP`: the bodies of the three stages in one busy window, stopping at the first fault. -/
def hotpBody (s : State) : Body := ((hmacBody s).andThen truncBody).andThen fmtBody

/-- The meaning of `HOTP` (R161, R15). -/
def execHotp (s : State) : Host.Outcome State Fault Refusal := completeWith (hotpBody s)

/-- R163: the rule of `CLR`. -/
def clrBody (s : State) : Body :=
  .ended { s.invalidateKey.zeroBuffer .txt with txtlen := 0, ctrHi := 0, ctrLo := 0 }

/-- The meaning of `CLR` (R163, R15). -/
def execClr (s : State) : Host.Outcome State Fault Refusal := completeWith (clrBody s)

end Sys2Proof.Machine
end

