-- ==== Sys2Proof/Machine/Dispatch.lean ====
section
/-! DEFINITION. One arm per command: the completion of the command in `CMDLATCH` (R15, R72). -/

namespace Sys2Proof.Machine

def exec (i : Instr) (s : State) : Host.Outcome State Fault Refusal :=
  match i with
  | .b32dec => Sys2Proof.Machine.execB32dec s
  | .hmac => Sys2Proof.Machine.execHmac s
  | .trunc => Sys2Proof.Machine.execTrunc s
  | .fmt => Sys2Proof.Machine.execFmt s
  | .hotp => Sys2Proof.Machine.execHotp s
  | .clr => Sys2Proof.Machine.execClr s

end Sys2Proof.Machine
end

