-- ==== Sys2Proof/Machine/Agents.lean ====
section
/-! DEFINITION. The steps of the agents: the core's *complete*, the host's transactions, hard reset (00_scope.md
section 5). -/

namespace Sys2Proof.Machine

/-- R15: the core's complete step, on a busy block: the rule of the command named by `CMDLATCH`, or the `E_CMD`
completion of an illegal word (R74, R75). -/
def coreComplete (s : State) : Host.Outcome State Fault Refusal :=
  match decode s.cmdlatch with
  | .command i => exec i s
  | .illegal _ => .next s.illegalWord

/-- R13, R15: the core's turn: it completes when `BUSY` = 1; otherwise its step is not enabled and the idle block
keeps all its state (R211; log 6). -/
def coreTurn (s : State) : Host.Outcome State Fault Refusal :=
  if s.status.busy then coreComplete s else .next s

/-- One event (R13). -/
def perform (s : State) : Event → Host.Outcome State Fault Refusal
  | .bus t => .next (s.transact t)
  | .core => coreTurn s
  | .hardReset => .next s.hardReset

/-- The event of the next step and the events after it: the first scheduled one; the core's turn once the scheduled
events are used up (R17: an issued command is eventually completed; log 1). -/
def nextEvent : List Event → Event × List Event
  | [] => (.core, [])
  | e :: es => (e, es)

/-- One step of the machine: the next event, performed with the events after it left to come. -/
def stepOnce (s : State) : Host.Outcome State Fault Refusal :=
  perform { s with schedule := (nextEvent s.schedule).2 } (nextEvent s.schedule).1

/-- A command word issued to the block (R14), its completion the very next event (log 7). -/
def State.presentCommand (s : State) (w : Word) : State :=
  { s.issue w with schedule := .core :: s.schedule }

end Sys2Proof.Machine
end

