-- ==== Sys2Proof/Machine/Step.lean ====
section
/-! DEFINITION. One step of the machine, and a state whose next step runs a given command. -/

namespace Sys2Proof.Machine

/-- One step: one event of one agent (R13). -/
def step (s : State) : Host.Outcome State Fault Refusal := stepOnce s

/-- `s` with the command of these bits delivered where the core takes its next command from: there is no fetch (R22,
R64), the command is issued into `CMDLATCH` (R14) and the core's step comes next (log 7). -/
def State.withFetchWord (s : State) (nbits w : Nat) : State :=
  s.presentCommand (BitVec.ofNat 32 (w % 2 ^ nbits))

end Sys2Proof.Machine
end

