-- ==== Sys2Proof/Machine/Driver.lean ====
section
/-! DEFINITION. The host software around the block: the notation of 30_encoding.md section 4 and the host-side
operations of 45_host_sequences.md. No hardware (R3, R175); every procedure drives the machine through its bus. What the
spec leaves to the host is marked where it is settled (log 13). -/

namespace Sys2Proof.Driver

open Sys2Proof.Machine

/-! ### Notation, R78 -/

/-- `WR4 reg, v`. -/
def wr4 (r : Reg) (v : Word) : Event := .bus (.write (BitVec.ofNat 14 r.offset) (.word v))

/-- `WR1 buf[i], v`. -/
def wr1 (b : Buffer) (i : Nat) (v : Byte) : Event := .bus (.write (BitVec.ofNat 14 (b.base + i)) (.byte v))

/-- `RD4 reg`. -/
def rd4 (r : Reg) : Event := .bus (.read (BitVec.ofNat 14 r.offset) .four)

/-- `RD1 buf[i]`. -/
def rd1 (b : Buffer) (i : Nat) : Event := .bus (.read (BitVec.ofNat 14 (b.base + i)) .one)

/-- `<MNEMONIC>`: `WR4 CMD, <word of rule R72>`. -/
def command (i : Instr) : Event := wr4 .cmd (encode i)

/-! ### Pseudo-operations, R79 -/

/-- The cell writes of `LOADTEXT`, from cell `i` on. -/
def loadCells : Nat → List Byte → List Event
  | _, [] => []
  | i, c :: cs => wr1 .txt i c :: loadCells (i + 1) cs

/-- `LOADTEXT "s"`. -/
def loadText (t : List Byte) : List Event := loadCells 0 t ++ [wr4 .txtlen (BitVec.ofNat 32 t.length)]

/-- `SETCTR v`. -/
def setCtr (v : BitVec 64) : List Event := [wr4 .ctrHi (v.extractLsb' 32 32), wr4 .ctrLo (v.extractLsb' 0 32)]

/-- `SETDIGITS d`, with the current `IE` written back. -/
def setDigits (ie : Bool) (d : BitVec 4) : List Event := [wr4 .cfg (Cfg.word ⟨d, ie⟩)]

/-- `ACK`: clear `DONE`, `ERR`, `OVR`. -/
def ack : List Event := [wr4 .status 0x00000086]

/-! ### How a host operation ends -/

/-- Why an operation ends without its answer. -/
inductive Failure where
  /-- R176: a step, or a digit count, that the host must not pass. -/
  | badConfig
  /-- R177: `InvalidEncoding`, with the reported position and character. -/
  | invalidEncoding (pos : Nat) (chr : Byte)
  /-- R177: "secret text longer than TEXT_MAX"; no D0 error. -/
  | textTooLong
  /-- D31: a counter below zero, on a host that refuses one. -/
  | negativeCounter
  /-- R179, R181: "require STATUS.DONE = 1" did not hold. -/
  | notDone
  /-- A step that answered no next state; none does (log 16). -/
  | stopped
  deriving DecidableEq, Repr

/-- How an operation ends; either way the machine's state after it is kept. -/
inductive Result (α : Type) where
  | ok (a : α) (s : State)
  | failed (why : Failure) (s : State)
  deriving DecidableEq, Repr

/-- Go on with the answer, or end as the first part ended. -/
def Result.andThen {α β : Type} : Result α → (α → State → Result β) → Result β
  | .ok a s, next => next a s
  | .failed why s, _ => .failed why s

/-- Play events on the machine, one step each. -/
def play : List Event → State → Result Unit
  | [], s => .ok () s
  | e :: es, s =>
    match step { s with schedule := [e] } with
    | .next t => play es t
    | .fault _ => .failed .stopped s
    | .refused _ => .failed .stopped s

/-- The value the last read returned. -/
def readBack (s : State) : Word :=
  match s.reply with
  | some (.read _ v) => v
  | _ => 0

/-- Play one read and answer its value. -/
def fetch (e : Event) (s : State) : Result Word := (play [e] s).andThen fun _ t => .ok (readBack t) t

/-- `WAIT`: poll `STATUS` until bit 0 is 0. The argument is the number of polls before the core's completion, which comes
at the latest after them and ends the wait (R17; DESIGN CHOICE, log 13: how many is the caller's argument). -/
def wait : Nat → State → Result Unit
  | 0, s => play [.core, rd4 .status] s
  | polls + 1, s => (fetch (rd4 .status) s).andThen fun v t => if v.getLsbD 0 then wait polls t else .ok () t

/-- The `n` reads of `READCODE` from cell `i` on. -/
def readCells : Nat → Nat → State → Result (List Byte)
  | _, 0, s => .ok [] s
  | i, n + 1, s =>
    (fetch (rd1 .code i) s).andThen fun v t =>
      (readCells (i + 1) n t).andThen fun cs u => .ok (v.extractLsb' 0 8 :: cs) u

/-- `READCODE`. -/
def readCode (s : State) : Result (List Byte) := (fetch (rd4 .codelen) s).andThen fun n t => readCells 0 n.toNat t

/-! ### Host arithmetic, R178 and R180 -/

/-- D31, `HOST_NEG_COUNTER`: what a host does with a counter below zero. -/
inductive NegCounter where
  | twosComplement
  | refuse
  deriving DecidableEq, Repr

/-- R178: `floor(s / timeStepSeconds)`, floor division of a possibly negative instant, for a positive step: every
operation refuses a step of 0 before it divides (R176). -/
def timeCounter (stepSeconds : Nat) (instant : Int) : Int := Int.fdiv instant stepSeconds

/-- R178: the 64-bit two's complement pattern of a counter, or none where the host refuses it (D31). -/
def counterPattern (m : NegCounter) (c : Int) : Option (BitVec 64) :=
  if c < 0 ∧ m = .refuse then none else some (BitVec.ofInt 64 c)

/-- R180: `timeStepSeconds - (s mod timeStepSeconds)`, for a positive step. -/
def secondsRemaining (stepSeconds : Nat) (instant : Int) : Int := stepSeconds - instant % stepSeconds

/-! ### The four operations, R177 to R182 -/

/-- R177: what the host remembers of a constructed engine; the key and the digit count live in the block (R175). -/
structure Engine where
  stepSeconds : Nat
  deriving DecidableEq, Repr

/-- R177: the cell of a character; a code point above 0x7F becomes 0xFF, the rule's own example of the "any" cell of
0x80 or above it allows (DESIGN CHOICE, log 13). -/
def charCell (codePoint : Nat) : Byte := if codePoint ≤ 0x7F then BitVec.ofNat 8 codePoint else 0xFF

/-- R176: both integers are above 0, and R79: the digit count is one `SETDIGITS` can write. -/
def configOk (stepSeconds codeDigits : Int) : Bool := decide (0 < stepSeconds ∧ 0 < codeDigits ∧ codeDigits ≤ 15)

/-- R177: what the host makes of `ERRINFO` after a `B32DEC` that faulted. The rule names no failure for any other code,
and `B32DEC` raises none: the sequence then goes on to its last line, as the rule writes it. -/
def constructionFault (e : Word) : Option Failure :=
  let code := e.extractLsb' 0 4
  if code = FaultCode.eB32char.number ∨ code = FaultCode.eB32empty.number then
    some (.invalidEncoding (e.extractLsb' 16 16).toNat (e.extractLsb' 8 8))
  else if code = FaultCode.eLen.number then some .textTooLong
  else none

/-- R177: `Construct(secretText, timeStepSeconds = 30, codeDigits = 6)`, with R176's defaults. Integers R176 forbids and
a text longer than `TEXT_MAX`, which "the host must not load", are refused before the block is touched (that the host
refuses, and knows `TEXT_MAX` as `PARAM` reads it: DESIGN CHOICE, log 13). -/
def construct (polls : Nat) (s : State) (text : List Nat) (stepSeconds : Int := 30) (codeDigits : Int := 6) :
    Result Engine :=
  if configOk stepSeconds codeDigits = false then .failed .badConfig s
  else if s.params.textMax < text.length then .failed .textTooLong s
  else
    (play (loadText (text.map charCell) ++ setDigits s.cfg.ie (BitVec.ofInt 4 codeDigits) ++ [command .b32dec]) s).andThen
      fun _ s1 => (wait polls s1).andThen
      fun _ s2 => (fetch (rd4 .status) s2).andThen
      fun v s3 =>
        if v.getLsbD 2 then
          (fetch (rd4 .errinfo) s3).andThen fun e s4 =>
            match constructionFault e with
            | some why => .failed why s4
            | none => .ok ⟨stepSeconds.toNat⟩ s4
        else .ok ⟨stepSeconds.toNat⟩ s3

/-- `SETCTR c ; HOTP ; WAIT ; require STATUS.DONE = 1 ; READCODE`: the derivation shared by R179 and R181. What the host
does when the requirement fails is left open (it holds after a construction that succeeded): the operation ends there
with `notDone`, no code, and the state reached (DESIGN CHOICE, log 13). -/
def deriveCode (polls : Nat) (ctr : BitVec 64) (s : State) : Result (List Byte) :=
  (play (setCtr ctr ++ [command .hotp]) s).andThen
    fun _ s1 => (wait polls s1).andThen
    fun _ s2 => (fetch (rd4 .status) s2).andThen
    fun v s3 => if v.getLsbD 1 then readCode s3 else .failed .notDone s3

/-- R179: `GenerateCode(instant)`. A step of 0 is refused (R176; 93_implementation_defined.md U9); the default policy for
a counter below zero is D31's. -/
def generateCode (polls : Nat) (s : State) (e : Engine) (instant : Int) (m : NegCounter := .twosComplement) :
    Result (List Byte) :=
  if e.stepSeconds = 0 then .failed .badConfig s
  else
    match counterPattern m (timeCounter e.stepSeconds instant) with
    | none => .failed .negativeCounter s
    | some ctr => deriveCode polls ctr s

/-- R180: `GetSecondsRemaining(instant)`; it does not touch the block. A step of 0 is refused (R176, U9). -/
def getSecondsRemaining (s : State) (e : Engine) (instant : Int) : Result Int :=
  if e.stepSeconds = 0 then .failed .badConfig s else .ok (secondsRemaining e.stepSeconds instant) s

/-- R181: the loop of `ValidateCode` over the deltas still to try. -/
def validateLoop (polls : Nat) (e : Engine) (candidate : List Nat) (instant : Int) (m : NegCounter) :
    List Int → State → Result Bool
  | [], s => .ok false s
  | delta :: rest, s =>
    (generateCode polls s e (instant + delta * e.stepSeconds) m).andThen fun code t =>
      if code.map (fun c => c.toNat) = candidate then .ok true t
      else validateLoop polls e candidate instant m rest t

/-- R181, R182: `ValidateCode(candidate, instant)`: deltas -1, 0, +1 in this order, exact string equality. The candidate is
a text of code points of any size, like the secret: one with a character the code does not have is compared and never
matches (R182). -/
def validateCode (polls : Nat) (s : State) (e : Engine) (candidate : List Nat) (instant : Int)
    (m : NegCounter := .twosComplement) : Result Bool :=
  validateLoop polls e candidate instant m [-1, 0, 1] s

end Sys2Proof.Driver
end

