-- ==== Sys2Proof/Safety.lean ====
section
/-! DEFINITION. The terms claims are made in: what a completion leaves in the flags, what stays unchanged, and the
invariants of 10_state.md rule R39. -/

namespace Sys2Proof.Machine

/-! ### Vocabulary of outcomes and frames -/

/-- The window offset `a` is a cell of buffer `b` (R51). -/
abbrev InBuffer (p : Config.Params) (b : Buffer) (a : Nat) : Prop := b.base ≤ a ∧ a < b.base + b.size p

/-- Every byte of the window outside the named buffers reads in `t` as in `s`. -/
abbrev SameBytesOutside (s t : State) (bs : List Buffer) : Prop :=
  ∀ a, (∀ b ∈ bs, ¬InBuffer s.params b a) → t.readByte a = s.readByte a

/-- `CFG`, `TXTLEN`, `CTR_HI`, `CTR_LO` are unchanged (the cells of `TXT` are bytes of the window). -/
structure SameInputs (s t : State) : Prop where
  cfg : t.cfg = s.cfg
  txtlen : t.txtlen = s.txtlen
  ctrHi : t.ctrHi = s.ctrHi
  ctrLo : t.ctrLo = s.ctrLo

/-- `OVR`, `CMDLATCH`, `PARAM` and the model's own fields are unchanged. -/
structure SameControl (s t : State) : Prop where
  ovr : t.status.ovr = s.status.ovr
  cmdlatch : t.cmdlatch = s.cmdlatch
  params : t.params = s.params
  schedule : t.schedule = s.schedule
  reply : t.reply = s.reply

/-- `KEYVALID`, `KEYLEN` are unchanged (the cells of `KEY` are bytes of the window). -/
structure SameKey (s t : State) : Prop where
  keyvalid : t.status.keyvalid = s.status.keyvalid
  keylen : t.keylen = s.keylen

/-- R15: the flags and `ERRINFO` at a completion without fault. -/
structure Completed (s t : State) : Prop where
  busy : t.status.busy = false
  done : t.status.done = true
  err : t.status.err = s.status.err
  errinfo : t.errinfo = s.errinfo

/-- R201: the flags and `ERRINFO` at a faulting completion. -/
structure Faulted (s t : State) (code : BitVec 4) (chr : Byte) (pos : BitVec 16) : Prop where
  busy : t.status.busy = false
  err : t.status.err = true
  done : t.status.done = s.status.done
  errinfo : t.errinfo = ⟨code, chr, pos⟩

/-- R39: `CODE` and what stands with it, invalidated. -/
structure CodeCleared (t : State) : Prop where
  cvalid : t.status.cvalid = false
  codeval : t.codeval = 0
  codelen : t.codelen = 0
  cells : ∀ i, i < Config.codeMax → t.cell .code i = 0

/-- R39: `TRUNC` invalidated. -/
structure TruncCleared (t : State) : Prop where
  tvalid : t.status.tvalid = false
  trunc : t.trunc = 0

/-- R39: `DIGEST` invalidated. -/
structure DigestCleared (t : State) : Prop where
  dvalid : t.status.dvalid = false
  cells : ∀ i, i < Config.digestLen → t.cell .digest i = 0

/-- R39: `KEY` invalidated. -/
structure KeyCleared (t : State) : Prop where
  keyvalid : t.status.keyvalid = false
  keylen : t.keylen = 0
  cells : ∀ i, i < t.params.keyMax → t.cell .key i = 0

/-- R39, R36: `KEY` holds the key `k` and zeros above it. -/
structure KeyHolds (t : State) (k : List Byte) : Prop where
  keyvalid : t.status.keyvalid = true
  keylen : t.keylen.toNat = k.length
  bytes : t.keyBytes = k
  tail : ∀ i, k.length ≤ i → i < t.params.keyMax → t.cell .key i = 0

/-- R37: `DIGEST` holds the digest `d`. -/
structure DigestHolds (t : State) (d : List Byte) : Prop where
  dvalid : t.status.dvalid = true
  bytes : t.digestBytes = d

/-- R31: `TRUNC` holds the number `p`. -/
structure TruncHolds (t : State) (p : Nat) : Prop where
  tvalid : t.status.tvalid = true
  trunc : t.trunc.toNat = p

/-- R32, R33, R38: `CODEVAL`, `CODELEN`, `CODE` hold the code of the number `v` at `n` digits. -/
structure CodeHolds (t : State) (v n : Nat) : Prop where
  cvalid : t.status.cvalid = true
  codelen : t.codelen.toNat = n
  codeval : t.codeval.toNat = v
  bytes : t.slice .code n = renderDec v n
  tail : ∀ i, n ≤ i → i < Config.codeMax → t.cell .code i = 0

/-- R53, R54: the transactions the window accepts, by offset and size. -/
abbrev Accepted (p : Config.Params) (off : Nat) (size : Size) : Prop :=
  (size = .four ∧ off % 4 = 0 ∧ off ≤ 0x2C) ∨
    (size = .one ∧
      ((0x40 ≤ off ∧ off < 0x54) ∨ (0x60 ≤ off ∧ off < 0x6A) ∨ (0x1000 ≤ off ∧ off < 0x1000 + p.textMax) ∨
        (0x2000 ≤ off ∧ off < 0x2000 + p.keyMax)))

/-- The next step is the core's, with the events `es` left to come: it is scheduled, or nothing is (log 1). -/
abbrev CoreNext (s : State) (es : List Event) : Prop := s.schedule = .core :: es ∨ (s.schedule = [] ∧ es = [])

/-! ### The invariants -/

/-- The cells outside the four buffers hold nothing. -/
abbrev OnlyBufferCells (s : State) : Prop := ∀ c ∈ s.mem, ∃ b : Buffer, InBuffer s.params b c.1

/-- R39 and the reachable values of the fault report (R24, R30, R191): what holds at reset and after every step. -/
structure State.Inv (s : State) : Prop where
  /-- R5. -/
  legal : s.params.Legal
  /-- The canonical form of the memory (log 4). -/
  memWf : Memory.wf s.mem
  /-- R51: only buffer cells hold anything. -/
  cells : OnlyBufferCells s
  /-- R39: `CVALID` implies `TVALID`. -/
  codeChain : s.status.cvalid = true → s.status.tvalid = true
  /-- R39: `TVALID` implies `DVALID`. -/
  truncChain : s.status.tvalid = true → s.status.dvalid = true
  /-- R39: `DVALID` implies `KEYVALID`. -/
  digestChain : s.status.dvalid = true → s.status.keyvalid = true
  /-- R39, R36: a valid key has 1 to `KEY_MAX` bytes and zeros above them. -/
  keyValid : s.status.keyvalid = true →
    1 ≤ s.keylen.toNat ∧ s.keylen.toNat ≤ s.params.keyMax ∧ KeyHolds s s.keyBytes
  /-- R39: a cleared flag implies zero storage. -/
  keyZero : s.status.keyvalid = false → KeyCleared s
  /-- R39: a valid digest is the HMAC of some counter under the key. -/
  digestValid : s.status.dvalid = true → ∃ c : BitVec 64, DigestHolds s (hmacSha1 s.keyBytes (bytesOfCounter c))
  /-- R39: a cleared flag implies zero storage. -/
  digestZero : s.status.dvalid = false → DigestCleared s
  /-- R39: a valid `TRUNC` is the truncation of `DIGEST`. -/
  truncValid : s.status.tvalid = true → s.trunc = dynTrunc s.digestBytes
  /-- R39: a cleared flag implies zero storage. -/
  truncZero : s.status.tvalid = false → TruncCleared s
  /-- R39: a valid code is the rendering of `TRUNC` mod 10^`CODELEN` in `CODELEN` digits. -/
  codeValid : s.status.cvalid = true → 1 ≤ s.codelen.toNat ∧ s.codelen.toNat ≤ 10 ∧
    CodeHolds s (s.trunc.toNat % 10 ^ s.codelen.toNat) s.codelen.toNat
  /-- R39: a cleared flag implies zero storage. -/
  codeZero : s.status.cvalid = false → CodeCleared s
  /-- R24: `DONE` and `ERR` are never both 1. -/
  oneOutcome : s.status.done = false ∨ s.status.err = false
  /-- R14: in the busy window no report stands. -/
  busyClean : s.status.busy = true → s.status.done = false ∧ s.status.err = false ∧ s.errinfo = ⟨0, 0, 0⟩
  /-- R191: codes 8 to 15 are never produced. -/
  codeRange : s.errinfo.code.toNat ≤ 7
  /-- R191: a report names its fault. -/
  reported : s.status.err = true → s.errinfo.code ≠ 0
  /-- R30: `CHR` and `POS` are 0 for every code but `E_B32CHAR`. -/
  onlyCharPosition : s.errinfo.code ≠ 1 → s.errinfo.chr = 0 ∧ s.errinfo.pos = 0

/-- The machine after `k` steps. -/
def runSteps (k : Nat) (s : State) : Host.Outcome State Fault Refusal := Sys2Proof.core.run k s

end Sys2Proof.Machine
end

