-- ==== Sys2Proof/Certificates/Slice0/Obligations.lean ====
section
/-! DEFINITION. The statements for the provers. They come from the numbered rules of spec/; a docstring that says
"derived" names the sentence or the log entry the statement rests on. -/

open Sys2Proof Sys2Proof.Machine

/-! ## Encoding -/

/-- R72, "Decoding": reserved bits first, then `op` selects the row; every word, by the value of its two fields. -/
def Obligations.OpcodeMapDecodesEveryWord : Prop :=
  ∀ w : Word,
    (256 ≤ w.toNat → decode w = .illegal .reservedBits) ∧
    (w.toNat = 1 → decode w = .command .b32dec) ∧
    (w.toNat = 2 → decode w = .command .hmac) ∧
    (w.toNat = 3 → decode w = .command .trunc) ∧
    (w.toNat = 4 → decode w = .command .fmt) ∧
    (w.toNat = 5 → decode w = .command .hotp) ∧
    (w.toNat = 6 → decode w = .command .clr) ∧
    (w.toNat = 0 ∨ (7 ≤ w.toNat ∧ w.toNat < 256) → decode w = .illegal .reservedOpcode)

/-- Derived (30_encoding.md section 3): "each of the 2^32 words is either one of the six of rule R72 or illegal". The
words that decode are exactly the encoded commands, each to its own command. -/
def Obligations.DecodedWordsAreExactlyTheEncodedCommands : Prop :=
  ∀ (w : Word) (i : Instr), decode w = .command i ↔ w = encode i

/-- Derived (30_encoding.md section 1): decode and encode agree on every well-formed command, and the table's own word
of each row, written out, is the one encoded. -/
def Obligations.EncodedCommandDecodesBack : Prop :=
  (∀ i : Instr, i.wf = true → decode (encode i) = .command i) ∧
    decodeTableWord 32 0x00000001 = some .b32dec ∧ decodeTableWord 32 0x00000002 = some .hmac ∧
    decodeTableWord 32 0x00000003 = some .trunc ∧ decodeTableWord 32 0x00000004 = some .fmt ∧
    decodeTableWord 32 0x00000005 = some .hotp ∧ decodeTableWord 32 0x00000006 = some .clr ∧
    decodeTableWord 32 0x00000105 = none

/-! ## Reset and the agents' steps -/

/-- R43: the reset value of every piece of state, `TEXT_MAX` at its default; and every command but `B32DEC` and `CLR`
faults on it. -/
def Obligations.ResetStateHasTheListedValues : Prop :=
  State.reset.status.word = 0x00000000 ∧ State.reset.cfg.word = 0x00000006 ∧ State.reset.cfg.digits = 6 ∧
    State.reset.cfg.ie = false ∧ State.reset.txtlen = 0 ∧ State.reset.ctrHi = 0 ∧ State.reset.ctrLo = 0 ∧
    State.reset.keylen = 0 ∧ State.reset.errinfo.word = 0 ∧ State.reset.trunc = 0 ∧ State.reset.codeval = 0 ∧
    State.reset.codelen = 0 ∧ paramWord State.reset.params = 0x00500080 ∧ State.reset.cmdlatch = 0 ∧
    State.reset.irq = false ∧ (∀ (b : Buffer) (i : Nat), State.reset.cell b i = 0x00) ∧
    ∀ i : Instr, i ≠ .b32dec → i ≠ .clr → ∃ t, exec i State.reset = .next t ∧ t.status.err = true

/-- R222, with R220: a hard reset, in a busy window too, is one step to the reset values of a block with the same
parameters (the model's own two fields are not the spec's); no other step ends a busy window without a completion. -/
def Obligations.HardResetAbandonsTheCommand : Prop :=
  (∀ (s : State) (es : List Event), s.schedule = .hardReset :: es →
    ∃ t, step s = .next t ∧ t = { State.resetWith s.params with schedule := t.schedule, reply := t.reply }) ∧
  ∀ s t : State, s.status.busy = true → step s = .next t → t.status.busy = false →
    (∃ es, s.schedule = .hardReset :: es) ∨ (t.status.done || t.status.err) = true

/-- Derived (log 1, log 6; 00_scope.md section 5, "the core may take its *complete* step"): a step runs the command the
latched word decodes to, when the block is busy and the core is next; an idle block lets the core's turn pass unchanged;
a scheduled bus transaction or hard reset is the next step's whole effect. -/
def Obligations.StepRunsTheDecodedCommand : Prop :=
  ∀ (s : State) (es : List Event),
    (∀ i, CoreNext s es → s.status.busy = true → decode s.cmdlatch = .command i →
      step s = exec i { s with schedule := es }) ∧
    (CoreNext s es → s.status.busy = false → step s = .next { s with schedule := es }) ∧
    (∀ t, s.schedule = .bus t :: es → step s = .next (State.transact { s with schedule := es } t)) ∧
    (s.schedule = .hardReset :: es → step s = .next { State.resetWith s.params with schedule := es })

/-- Derived (log 7): a command word presented to the block runs at the next step, on the state its issue left. -/
def Obligations.PresentedCommandRunsNext : Prop :=
  ∀ (s : State) (w : Nat) (i : Instr), decodeTableWord 32 w = some i →
    step (s.withFetchWord 32 w) = exec i (s.issue (BitVec.ofNat 32 w))

/-- R198: the completion of a word that is not one of the six changes no state but `BUSY`, `ERR`, `ERRINFO` (the
model's own list of events apart). -/
def Obligations.IllegalWordCompletesWithECmd : Prop :=
  ∀ (s : State) (es : List Event), CoreNext s es → s.status.busy = true → (∀ i, s.cmdlatch ≠ encode i) →
    ∃ t, step s = .next t ∧ t = { s with
      status := { s.status with busy := false, err := true }, errinfo := ⟨7, 0, 0⟩, schedule := t.schedule }

/-- Derived (00_scope.md section 5): "The block itself never halts and has no final state". No step faults or is refused;
after any number of steps there is a next state. -/
def Obligations.TheBlockNeverHalts : Prop :=
  ∀ (k : Nat) (s : State), ∃ t, runSteps k s = .next t

/-- Derived (00_scope.md section 5, "if `STATUS.BUSY` = 1 the *complete* step is eventually taken"; the bound is the
model's, log 1): a busy block is idle again within one step more than there are events to come. -/
def Obligations.IssuedCommandIsEventuallyOver : Prop :=
  ∀ s : State, s.status.busy = true →
    ∃ k t, k ≤ s.schedule.length + 1 ∧ runSteps k s = .next t ∧ t.status.busy = false

/-! ## The bus -/

/-- R14: a command issue, with every word legal or not, and nothing else changed (the reply is the response of rule R55
case 4); an illegal word faults at its completion. -/
def Obligations.CommandIssueLatchesTheWord : Prop :=
  ∀ (s : State) (v : Word), s.status.busy = false →
    s.transact (.write 0x0000 (.word v)) = { s with
      cmdlatch := v, status := { s.status with busy := true, done := false, err := false }, errinfo := ⟨0, 0, 0⟩,
      reply := some (.write .okay) } ∧
    ((∀ i, v ≠ encode i) → ∃ t, step { s.transact (.write 0x0000 (.word v)) with schedule := [.core] } = .next t ∧
      t.status.busy = false ∧ t.status.err = true ∧ t.errinfo.code = 7)

/-- R53, R54, R207: every transaction that is not a 4-byte access at exactly a register's offset or a 1-byte access of a
buffer cell is answered `ERROR`, reads 0 and changes nothing, whether the block is busy or idle. -/
def Obligations.RefusedTransactionHasNoEffect : Prop :=
  ∀ (s : State) (off : BitVec 14),
    (∀ size, ¬Accepted s.params off.toNat size →
      s.transact (.read off size) = { s with reply := some (.read .error 0) }) ∧
    (∀ data : WriteData, ¬Accepted s.params off.toNat data.size →
      s.transact (.write off data) = { s with reply := some (.write .error) })

/-- R55: write processing, the nine cases in order (case 1 is `RefusedTransactionHasNoEffect`'s, restated here). -/
def Obligations.WriteProcessingFollowsTheNineCases : Prop :=
  ∀ (s : State) (off : BitVec 14) (data : WriteData), s.params.Legal →
    (¬Accepted s.params off.toNat data.size →
      s.transact (.write off data) = { s with reply := some (.write .error) }) ∧
    (Accepted s.params off.toNat data.size → s.status.busy = true →
      s.transact (.write off data) =
        { s with status := { s.status with ovr := true }, reply := some (.write .okay) }) ∧
    (Accepted s.params off.toNat data.size → s.status.busy = false →
      (off.toNat = 0x18 ∨ off.toNat = 0x1C ∨ off.toNat = 0x20 ∨ off.toNat = 0x24 ∨ off.toNat = 0x28 ∨
          off.toNat = 0x2C ∨ (0x40 ≤ off.toNat ∧ off.toNat < 0x6A) ∨ 0x2000 ≤ off.toNat) →
        s.transact (.write off data) = { s with reply := some (.write .okay) }) ∧
    (s.status.busy = false →
      (∀ v, s.transact (.write 0x0000 (.word v)) = { s.issue v with reply := some (.write .okay) }) ∧
      (∀ v, s.transact (.write 0x0004 (.word v)) = { s with
        status := { s.status with
          done := s.status.done && !v.getLsbD 1, err := s.status.err && !v.getLsbD 2,
          ovr := s.status.ovr && !v.getLsbD 7 },
        reply := some (.write .okay) }) ∧
      (∀ v, s.transact (.write 0x0008 (.word v)) =
        { s with cfg := ⟨v.extractLsb' 0 4, v.getLsbD 8⟩, reply := some (.write .okay) }) ∧
      (∀ v, s.transact (.write 0x000C (.word v)) =
        { s with txtlen := v.extractLsb' 0 16, reply := some (.write .okay) }) ∧
      (∀ v, s.transact (.write 0x0010 (.word v)) = { s with ctrHi := v, reply := some (.write .okay) }) ∧
      (∀ v, s.transact (.write 0x0014 (.word v)) = { s with ctrLo := v, reply := some (.write .okay) }) ∧
      (∀ i v, i < s.params.textMax → s.transact (.write (BitVec.ofNat 14 (0x1000 + i)) (.byte v)) =
        { s with mem := Memory.set s.mem (0x1000 + i) v, reply := some (.write .okay) }))

/-- Derived (70_reset_and_hazards.md section 3, "a register written by one transaction is read back by the next", and
rule R226's "results already produced are not invalidated by that"): writing a cell of `TXT` stores that byte, leaves
every other byte, every flag, every register and every result as they were, and reads back. -/
def Obligations.TextCellWriteStoresOneByte : Prop :=
  ∀ (s : State) (i : Nat) (v : Byte) (t : State), s.params.Legal → s.status.busy = false → i < s.params.textMax →
    t = s.transact (.write (BitVec.ofNat 14 (0x1000 + i)) (.byte v)) →
      t.cell .txt i = v ∧ (∀ a, a ≠ 0x1000 + i → t.readByte a = s.readByte a) ∧ t.status = s.status ∧
      SameInputs s t ∧ SameKey s t ∧ t.trunc = s.trunc ∧ t.codeval = s.codeval ∧ t.codelen = s.codelen ∧
      t.errinfo = s.errinfo ∧ t.reply = some (.write .okay) ∧
      (t.transact (.read (BitVec.ofNat 14 (0x1000 + i)) .one)).reply = some (.read .okay (v.setWidth 32))

/-- R56: read processing, the eight cases; a read never changes the block's state (only the answer port, log 2). -/
def Obligations.ReadProcessingFollowsTheEightCases : Prop :=
  ∀ (s : State) (off : BitVec 14) (size : Size), s.params.Legal →
    (¬Accepted s.params off.toNat size → s.transact (.read off size) = { s with reply := some (.read .error 0) }) ∧
    (Accepted s.params off.toNat size →
      ∃ v : Word, s.transact (.read off size) = { s with reply := some (.read .okay v) } ∧
        (off.toNat = 0x00 → v = 0) ∧
        (off.toNat = 0x2C → v.toNat = s.params.keyMax * 65536 + s.params.textMax) ∧
        (off.toNat = 0x08 → v = s.cfg.word) ∧
        (off.toNat = 0x0C → v.toNat = s.txtlen.toNat) ∧
        (off.toNat = 0x10 → v = s.ctrHi) ∧
        (off.toNat = 0x14 → v = s.ctrLo) ∧
        (0x1000 ≤ off.toNat ∧ off.toNat < 0x2000 → v.toNat = (s.readByte off.toNat).toNat) ∧
        (off.toNat = 0x04 → s.status.busy = true → v.toNat = (if s.status.ovr then 128 else 0) + 1) ∧
        (off.toNat = 0x04 → s.status.busy = false → v = s.status.word) ∧
        ((off.toNat = 0x18 ∨ off.toNat = 0x1C ∨ off.toNat = 0x20 ∨ off.toNat = 0x24 ∨ off.toNat = 0x28 ∨
            (0x40 ≤ off.toNat ∧ off.toNat < 0x6A) ∨ 0x2000 ≤ off.toNat) → s.status.busy = true → v = 0) ∧
        (s.status.busy = false →
          (off.toNat = 0x18 → v.toNat = s.keylen.toNat) ∧
          (off.toNat = 0x1C → v.toNat = s.errinfo.pos.toNat * 65536 + s.errinfo.chr.toNat * 256 + s.errinfo.code.toNat) ∧
          (off.toNat = 0x20 → v.toNat = s.trunc.toNat) ∧
          (off.toNat = 0x24 → v.toNat = s.codeval.toNat) ∧
          (off.toNat = 0x28 → v.toNat = s.codelen.toNat) ∧
          (0x40 ≤ off.toNat ∧ off.toNat < 0x6A ∨ 0x2000 ≤ off.toNat → v.toNat = (s.readByte off.toNat).toNat)))

/-- R24, the layout of `STATUS` as it reads while idle: each flag at its bit, bits 31:8 zero. Derived because the rule
says more (what sets and clears the flags, and the busy view). -/
def Obligations.StatusReadsEachFlagAtItsBit : Prop :=
  ∀ f : Status,
    f.word.getLsbD 0 = f.busy ∧ f.word.getLsbD 1 = f.done ∧ f.word.getLsbD 2 = f.err ∧
    f.word.getLsbD 3 = f.keyvalid ∧ f.word.getLsbD 4 = f.dvalid ∧ f.word.getLsbD 5 = f.tvalid ∧
    f.word.getLsbD 6 = f.cvalid ∧ f.word.getLsbD 7 = f.ovr ∧ f.word.toNat < 256

/-- R57: a write to `CFG` stores `v[3:0]` and `v[8]` and discards the rest; a write to `TXTLEN` discards `v[31:16]`; a
write to `STATUS` ignores every bit but 1, 2, 7; and every reserved bit of every register reads 0, busy or idle (each
offset below with the mask of its reserved bits, 10_state.md R24 to R33). -/
def Obligations.ReservedRegisterBitsAreDiscarded : Prop :=
  (∀ (s : State) (v : Word), s.status.busy = false →
    ((s.transact (.write 0x0008 (.word v))).transact (.read 0x0008 .four)).reply =
      some (.read .okay (v &&& 0x0000010F)) ∧
    ((s.transact (.write 0x000C (.word v))).transact (.read 0x000C .four)).reply =
      some (.read .okay (v &&& 0x0000FFFF)) ∧
    s.transact (.write 0x0004 (.word v)) = s.transact (.write 0x0004 (.word (v &&& 0x00000086)))) ∧
  ∀ s : State, ∀ p ∈ [((0x0004 : BitVec 14), (0xFFFFFF00 : Word)), (0x0008, 0xFFFFFEF0), (0x000C, 0xFFFF0000),
      (0x0018, 0xFFFF0000), (0x001C, 0x000000F0), (0x0020, 0x80000000), (0x0024, 0x80000000), (0x0028, 0xFFFFFFF0)],
    ∃ v, (s.transact (.read p.1 .four)).reply = some (.read .okay v) ∧ v &&& p.2 = 0

/-- R34, with R6: `PARAM` reads `{KEY_MAX, TEXT_MAX}`, 0x00500080 with the default, and no step of the machine, hard
reset among them, changes it. -/
def Obligations.ParamIsConstant : Prop :=
  (∀ s : State, s.params.Legal → (s.transact (.read 0x002C .four)).reply =
      some (.read .okay (BitVec.ofNat 32 (s.params.textMax * 5 / 8 * 65536 + s.params.textMax)))) ∧
    (∀ s : State, s.params = Config.defaultParams →
      (s.transact (.read 0x002C .four)).reply = some (.read .okay 0x00500080)) ∧
    ∀ s t : State, step s = .next t → t.params = s.params

/-- R206: what lowers `irq`; and it does not depend on `OVR`. -/
def Obligations.InterruptLineIsLowered : Prop :=
  ∀ s : State,
    (∀ v : Word, s.status.busy = false → (s.status.done = true → v.getLsbD 1 = true) →
      (s.status.err = true → v.getLsbD 2 = true) → (s.transact (.write 0x0004 (.word v))).irq = false) ∧
    (∀ v : Word, s.status.busy = false → (s.transact (.write 0x0000 (.word v))).irq = false) ∧
    (∀ v : Word, s.status.busy = false → v.getLsbD 8 = false → (s.transact (.write 0x0008 (.word v))).irq = false) ∧
    s.hardReset.irq = false ∧
    (∀ b, ({ s with status := { s.status with ovr := b } } : State).irq = s.irq)

/-- Derived (60_exceptions.md section 4): "It reports that the last command is over, with or without fault": once a
command completes, `irq` is 1 exactly when `CFG.IE` is. -/
def Obligations.CompletionRaisesTheInterruptLine : Prop :=
  ∀ (s t : State) (es : List Event), CoreNext s es → s.status.busy = true → step s = .next t →
    s.irq = false ∧ t.irq = s.cfg.ie

/-- R203: the two ways the fault report is cleared: a write of 1 to `STATUS.ERR` clears `ERR`, lowers `irq` and leaves
`ERRINFO`; issuing any command clears `ERR`, `DONE` and `ERRINFO`. Derived because the rule also says what needs no
clearing. -/
def Obligations.FaultReportIsClearedInTwoWays : Prop :=
  ∀ (s : State) (v : Word), s.status.busy = false →
    (v.getLsbD 2 = true → (s.transact (.write 0x0004 (.word v))).status.err = false ∧
      (s.transact (.write 0x0004 (.word v))).errinfo = s.errinfo ∧
      (s.status.done = false → (s.transact (.write 0x0004 (.word v))).irq = false)) ∧
    (s.transact (.write 0x0000 (.word v))).status.err = false ∧
    (s.transact (.write 0x0000 (.word v))).status.done = false ∧
    (s.transact (.write 0x0000 (.word v))).errinfo = ⟨0, 0, 0⟩

/-- Derived (60_exceptions.md section 5): `OVR` is sticky: "only a host write of 1 to bit 7 while idle, or hard reset,
clears it; `CLR` and command issue do not". -/
def Obligations.OverrunIsSticky : Prop :=
  ∀ s t : State, step s = .next t → s.status.ovr = true → t.status.ovr = false →
    (∃ es, s.schedule = .hardReset :: es) ∨
      ∃ v es, s.schedule = .bus (.write 0x0004 (.word v)) :: es ∧ s.status.busy = false ∧ v.getLsbD 7 = true

/-- Derived (00_scope.md section 5, "the state the command reads at completion is the state at issue, except
`STATUS.OVR`"): whatever transactions the host makes in a busy window, the command that then completes leaves the state
it would have left without them, but for `OVR` and the answer port. -/
def Obligations.BusyWindowTrafficCannotChangeTheResult : Prop :=
  ∀ (s : State) (ts : List Transaction) (i : Instr), s.status.busy = true → decode s.cmdlatch = .command i →
    s.schedule = ts.map .bus ++ [.core] →
      ∃ t u, exec i { s with schedule := [] } = .next t ∧ runSteps (ts.length + 1) s = .next u ∧
        (∃ b r, u = { t with status := { t.status with ovr := b }, reply := r }) ∧
        (s.status.ovr = true → u.status.ovr = true)

/-! ## Base32 and `B32DEC` -/

/-- R93, with the fold of R91: the class of every cell. -/
def Obligations.CellClassesFollowTheAlphabet : Prop :=
  ∀ c : Byte,
    (0x41 ≤ c.toNat ∧ c.toNat ≤ 0x5A → b32Class c = some (BitVec.ofNat 5 (c.toNat - 0x41))) ∧
    (0x61 ≤ c.toNat ∧ c.toNat ≤ 0x7A → b32Class c = some (BitVec.ofNat 5 (c.toNat - 0x61))) ∧
    (0x32 ≤ c.toNat ∧ c.toNat ≤ 0x37 → b32Class c = some (BitVec.ofNat 5 (c.toNat - 0x18))) ∧
    (¬(0x41 ≤ c.toNat ∧ c.toNat ≤ 0x5A) → ¬(0x61 ≤ c.toNat ∧ c.toNat ≤ 0x7A) →
      ¬(0x32 ≤ c.toNat ∧ c.toNat ≤ 0x37) → b32Class c = none)

/-- R92: the maximal run of `'='` at the end is removed, and nothing else; any number of trailing `'='` is accepted. -/
def Obligations.OnlyTrailingPaddingIsStripped : Prop :=
  (∀ t : List Byte, (∃ k, t = stripPad t ++ List.replicate k 0x3D) ∧ (stripPad t).getLast? ≠ some 0x3D) ∧
    ∀ (t : List Byte) (k : Nat), b32Decode (t ++ List.replicate k 0x3D) = b32Decode t

/-- Derived (40_base32.md section 2, "Output-length law"): floor(5n / 8) bytes from n stripped characters, for every n;
and a text of alphabet characters always decodes. -/
def Obligations.DecodedLengthIsFiveEighths : Prop :=
  ∀ t : List Byte,
    (∀ out, b32Decode t = .ok out → out.length = 5 * (stripPad t).length / 8) ∧
    ((∀ c ∈ stripPad t, b32Class c ≠ none) → ∃ out, b32Decode t = .ok out)

/-- Derived (40_base32.md section 1, "case-insensitive"; 95_test_vectors.md section 11): folding the case of a text
changes neither whether it decodes nor the bytes. -/
def Obligations.CaseDoesNotChangeTheKey : Prop :=
  ∀ (t out : List Byte), b32Decode (t.map foldCase) = .ok out ↔ b32Decode t = .ok out

/-- Derived (40_base32.md section 4, "Round trip"): `B32DECODE(B32ENCODE(b))` = `Ok(b)` for every byte sequence. -/
def Obligations.EncodingThenDecodingGivesTheBytesBack : Prop :=
  ∀ b : List Byte, b32Decode (b32Encode b) = .ok b

/-- R98: the rule of `B32DEC`, whole: each outcome by the text, the invalidation on every outcome, and the frame. -/
def Obligations.B32decFollowsItsRule : Prop :=
  ∀ s : State, s.params.Legal →
    (∀ out, s.txtlen.toNat ≤ s.params.textMax → b32Decode s.text = .ok out → out ≠ [] →
      ∃ t, exec .b32dec s = .next t ∧ Completed s t ∧ KeyHolds t out ∧ out.length ≤ s.params.keyMax ∧
        DigestCleared t ∧ TruncCleared t ∧ CodeCleared t ∧ SameInputs s t ∧ SameControl s t ∧
        SameBytesOutside s t [.key, .digest, .code]) ∧
    (∀ code chr pos,
      (s.params.textMax < s.txtlen.toNat ∧ code = 3 ∧ chr = 0 ∧ pos = 0) ∨
      (s.txtlen.toNat ≤ s.params.textMax ∧
        ((∃ p, b32Decode s.text = .err chr p ∧ code = 1 ∧ pos = BitVec.ofNat 16 p) ∨
          (b32Decode s.text = .ok [] ∧ code = 2 ∧ chr = 0 ∧ pos = 0))) →
      ∃ t, exec .b32dec s = .next t ∧ Faulted s t code chr pos ∧ KeyCleared t ∧ DigestCleared t ∧ TruncCleared t ∧
        CodeCleared t ∧ SameInputs s t ∧ SameControl s t ∧ SameBytesOutside s t [.key, .digest, .code])

/-- R101: `E_B32CHAR` reports the first cell of the stripped text that is outside the alphabet, its zero-based index in
`TXT` and its value as stored. -/
def Obligations.FirstOffendingCharacterIsReported : Prop :=
  ∀ (s : State) (i : Nat), s.params.Legal → s.txtlen.toNat ≤ s.params.textMax → i < (stripPad s.text).length →
    b32Class (s.cell .txt i) = none → (∀ j, j < i → b32Class (s.cell .txt j) ≠ none) →
      ∃ t, exec .b32dec s = .next t ∧ t.status.err = true ∧ t.errinfo.code = 1 ∧ t.errinfo.chr = s.cell .txt i ∧
        t.errinfo.pos.toNat = i ∧ t.status.keyvalid = false

/-- Derived (40_base32.md section 3, "Empty key"): the empty text, a text of only `'='` and a single alphabet character
with or without padding fault with `E_B32EMPTY`; the character check comes first. -/
def Obligations.TextOfNoBytesIsRefused : Prop :=
  ∀ s : State, s.params.Legal → s.txtlen.toNat ≤ s.params.textMax → (stripPad s.text).length ≤ 1 →
    ∃ t, exec .b32dec s = .next t ∧ t.status.err = true ∧ t.status.keyvalid = false ∧
      ((∀ c ∈ stripPad s.text, b32Class c ≠ none) → t.errinfo = ⟨2, 0, 0⟩) ∧
      ((∃ c ∈ stripPad s.text, b32Class c = none) → t.errinfo.code = 1)

/-! ## SHA-1, HMAC and `HMAC` -/

/-- R110: the message is the eight bytes of `CTR`, most significant first, of every counter. -/
def Obligations.CounterIsSerialisedBigEndian : Prop :=
  ∀ s : State, s.message =
    [s.ctrHi.extractLsb' 24 8, s.ctrHi.extractLsb' 16 8, s.ctrHi.extractLsb' 8 8, s.ctrHi.extractLsb' 0 8,
     s.ctrLo.extractLsb' 24 8, s.ctrLo.extractLsb' 16 8, s.ctrLo.extractLsb' 8 8, s.ctrLo.extractLsb' 0 8]

/-- Derived (41_hmac_sha1.md section 2, supplied there from general knowledge; log 14): the padded message is the
message, 0x80, the smallest number of zeros and the bit length, 64 * ceil((len + 9) / 64) bytes. -/
def Obligations.PaddingFillsWholeBlocks : Prop :=
  ∀ m : List Byte, (shaPad m).length = 64 * ((m.length + 9 + 63) / 64) ∧ (shaPad m).take m.length = m ∧
    (shaPad m).getD m.length 0 = 0x80 ∧
    (∀ j, m.length < j → j < (shaPad m).length - 8 → (shaPad m).getD j 0xFF = 0x00) ∧
    (shaPad m).drop ((shaPad m).length - 8) = bytesOfCounter (BitVec.ofNat 64 (8 * m.length))

/-- Derived (41_hmac_sha1.md section 2, supplied there from general knowledge; log 14): the schedule of a 64-byte block
is its sixteen big-endian words and then the recurrence. -/
def Obligations.ScheduleFollowsTheRecurrence : Prop :=
  ∀ block : List Byte, block.length = 64 →
    (schedule block).length = 80 ∧
    (∀ t, t < 16 → (schedule block).getD t 0 =
      be32 (block.getD (4 * t) 0) (block.getD (4 * t + 1) 0) (block.getD (4 * t + 2) 0) (block.getD (4 * t + 3) 0)) ∧
    (∀ t, 16 ≤ t → t < 80 → (schedule block).getD t 0 =
      rotl 1 ((schedule block).getD (t - 3) 0 ^^^ (schedule block).getD (t - 8) 0 ^^^
        (schedule block).getD (t - 14) 0 ^^^ (schedule block).getD (t - 16) 0))

/-- Derived (41_hmac_sha1.md section 3, supplied there from general knowledge; log 14): the key block is 64 bytes for
every key, a key of 64 bytes or fewer padded with zeros and a longer one hashed first; digests are 20 bytes. -/
def Obligations.KeyBlockAndDigestSizes : Prop :=
  ∀ k m : List Byte, (keyBlock k).length = 64 ∧ (hmacSha1 k m).length = 20 ∧ (sha1 m).length = 20 ∧
    (k.length ≤ 64 → (keyBlock k).take k.length = k ∧ ∀ j, k.length ≤ j → j < 64 → (keyBlock k).getD j 0xFF = 0x00) ∧
    (64 < k.length → keyBlock k = keyBlock (sha1 k))

/-- R121: the rule of `HMAC`, whole, with its frame. -/
def Obligations.HmacFollowsItsRule : Prop :=
  ∀ s : State,
    (s.status.keyvalid = true →
      ∃ t, exec .hmac s = .next t ∧ Completed s t ∧
        DigestHolds t (hmacSha1 s.keyBytes (bytesOfCounter (s.ctrHi ++ s.ctrLo))) ∧ TruncCleared t ∧ CodeCleared t ∧
        SameKey s t ∧ SameInputs s t ∧ SameControl s t ∧ SameBytesOutside s t [.digest, .code]) ∧
    (s.status.keyvalid = false →
      ∃ t, exec .hmac s = .next t ∧ Faulted s t 4 0 0 ∧ DigestCleared t ∧ TruncCleared t ∧ CodeCleared t ∧
        SameKey s t ∧ SameInputs s t ∧ SameControl s t ∧ SameBytesOutside s t [.digest, .code])

/-- Derived (00_scope.md section 5, "a function of the architected state at issue", with the reads listed in
20_memory.md section 5): the digest of `HMAC` depends on the key and the counter only. -/
def Obligations.DigestDependsOnKeyAndCounterOnly : Prop :=
  ∀ s u t v : State, exec .hmac s = .next t → exec .hmac u = .next v →
    s.status.keyvalid = u.status.keyvalid → s.keylen = u.keylen →
    (∀ i, i < s.keylen.toNat → s.cell .key i = u.cell .key i) → s.ctrHi = u.ctrHi → s.ctrLo = u.ctrLo →
      t.status.dvalid = v.status.dvalid ∧ ∀ i, i < 20 → t.cell .digest i = v.cell .digest i

/-! ## `TRUNC` -/

/-- R140, R141: the truncation of every digest, on integers: the low nibble of byte 19 selects four bytes, read
big-endian with the top bit masked; the index never passes 18. -/
def Obligations.TruncationReadsFourBytesBigEndian : Prop :=
  ∀ d : List Byte, d.length = 20 →
    (d.getD 19 0).toNat % 16 + 3 ≤ 18 ∧
    (dynTrunc d).toNat =
      ((d.getD ((d.getD 19 0).toNat % 16) 0).toNat * 2 ^ 24 + (d.getD ((d.getD 19 0).toNat % 16 + 1) 0).toNat * 2 ^ 16 +
        (d.getD ((d.getD 19 0).toNat % 16 + 2) 0).toNat * 2 ^ 8 +
        (d.getD ((d.getD 19 0).toNat % 16 + 3) 0).toNat) % 2 ^ 31

/-- R142: the rule of `TRUNC`, whole, with its frame. -/
def Obligations.TruncFollowsItsRule : Prop :=
  ∀ s : State,
    (s.status.dvalid = true →
      ∃ t, exec .trunc s = .next t ∧ Completed s t ∧ TruncHolds t (dynTrunc s.digestBytes).toNat ∧ CodeCleared t ∧
        t.status.dvalid = true ∧ SameKey s t ∧ SameInputs s t ∧ SameControl s t ∧ SameBytesOutside s t [.code]) ∧
    (s.status.dvalid = false →
      ∃ t, exec .trunc s = .next t ∧ Faulted s t 5 0 0 ∧ TruncCleared t ∧ CodeCleared t ∧ t.status.dvalid = false ∧
        SameKey s t ∧ SameInputs s t ∧ SameControl s t ∧ SameBytesOutside s t [.code])

/-! ## `FMT` -/

/-- R145: `DEC(v, n)` is exactly `n` digit characters, character `i` the digit `floor(v / 10^(n-1-i)) mod 10`. -/
def Obligations.RenderingIsExactlyNDigits : Prop :=
  ∀ v n : Nat, (renderDec v n).length = n ∧
    (∀ i, i < n → ((renderDec v n).getD i 0).toNat = 0x30 + v / 10 ^ (n - 1 - i) % 10) ∧
    (∀ c ∈ renderDec v n, 0x30 ≤ c.toNat ∧ c.toNat ≤ 0x39)

/-- Derived (42_truncate_format.md section 2, laws (c) and (d)): read as a decimal number the characters give the
number, and a shorter code is the last characters of a longer one. -/
def Obligations.RenderingReadsBackAndNests : Prop :=
  (∀ v n : Nat, v < 10 ^ n → (renderDec v n).foldl (fun a c => a * 10 + (c.toNat - 0x30)) 0 = v) ∧
    ∀ (p : BitVec 31) (n m : Nat), n < m →
      renderDec (reduceCode p n) n = (renderDec (reduceCode p m) m).drop (m - n)

/-- R146, with the legal counts of R147: the rule of `FMT`, whole, with its frame. -/
def Obligations.FmtFollowsItsRule : Prop :=
  ∀ s : State,
    (s.status.tvalid = true → 1 ≤ s.cfg.digits.toNat → s.cfg.digits.toNat ≤ 10 →
      ∃ t, exec .fmt s = .next t ∧ Completed s t ∧
        CodeHolds t (s.trunc.toNat % 10 ^ s.cfg.digits.toNat) s.cfg.digits.toNat ∧ t.status.tvalid = true ∧
        t.status.dvalid = s.status.dvalid ∧ t.trunc = s.trunc ∧ SameKey s t ∧ SameInputs s t ∧ SameControl s t ∧
        SameBytesOutside s t [.code]) ∧
    (∀ code,
      (s.status.tvalid = false ∧ code = 5) ∨
      (s.status.tvalid = true ∧ (s.cfg.digits.toNat = 0 ∨ 10 < s.cfg.digits.toNat) ∧ code = 6) →
      ∃ t, exec .fmt s = .next t ∧ Faulted s t code 0 0 ∧ CodeCleared t ∧ t.status.tvalid = s.status.tvalid ∧
        t.status.dvalid = s.status.dvalid ∧ t.trunc = s.trunc ∧ SameKey s t ∧ SameInputs s t ∧ SameControl s t ∧
        SameBytesOutside s t [.code])

/-! ## `HOTP` and `CLR` -/

/-- R161: the rule of `HOTP`, whole: the code of R160 on success, each fault with what it leaves, and the frame. -/
def Obligations.HotpFollowsItsRule : Prop :=
  ∀ (s : State) (d : List Byte) (p : BitVec 31), d = hmacSha1 s.keyBytes (bytesOfCounter (s.ctrHi ++ s.ctrLo)) →
    p = dynTrunc d →
    (s.status.keyvalid = true → 1 ≤ s.cfg.digits.toNat → s.cfg.digits.toNat ≤ 10 →
      ∃ t, exec .hotp s = .next t ∧ Completed s t ∧ DigestHolds t d ∧ TruncHolds t p.toNat ∧
        CodeHolds t (p.toNat % 10 ^ s.cfg.digits.toNat) s.cfg.digits.toNat ∧
        t.slice .code s.cfg.digits.toNat = hotpCode s.keyBytes (s.ctrHi ++ s.ctrLo) s.cfg.digits.toNat ∧
        SameKey s t ∧ SameInputs s t ∧ SameControl s t ∧ SameBytesOutside s t [.digest, .code]) ∧
    (s.status.keyvalid = true → (s.cfg.digits.toNat = 0 ∨ 10 < s.cfg.digits.toNat) →
      ∃ t, exec .hotp s = .next t ∧ Faulted s t 6 0 0 ∧ DigestHolds t d ∧ TruncHolds t p.toNat ∧ CodeCleared t ∧
        SameKey s t ∧ SameInputs s t ∧ SameControl s t ∧ SameBytesOutside s t [.digest, .code]) ∧
    (s.status.keyvalid = false →
      ∃ t, exec .hotp s = .next t ∧ Faulted s t 4 0 0 ∧ DigestCleared t ∧ TruncCleared t ∧ CodeCleared t ∧
        SameKey s t ∧ SameInputs s t ∧ SameControl s t ∧ SameBytesOutside s t [.digest, .code])

/-- Derived (43_hotp_control.md section 2, "One derivation only"): from the state an issue left, `HOTP` ends in the
state of `HMAC`, `TRUNC`, `FMT` issued one after another, but for the fault code where the key is missing (`E_NOKEY`
against `E_SEQ`) and for `CMDLATCH`, whose value while idle is irrelevant (log 9). -/
def Obligations.HotpEqualsTheThreeStages : Prop :=
  ∀ s : State, s.status.done = false → s.status.err = false →
    ∃ t t1 t2 t3, exec .hotp s = .next t ∧ exec .hmac s = .next t1 ∧
      exec .trunc (t1.issue (encode .trunc)) = .next t2 ∧ exec .fmt (t2.issue (encode .fmt)) = .next t3 ∧
      (s.status.keyvalid = true → 1 ≤ s.cfg.digits.toNat → s.cfg.digits.toNat ≤ 10 → s.errinfo = ⟨0, 0, 0⟩ →
        t = { t3 with cmdlatch := s.cmdlatch }) ∧
      (s.status.keyvalid = true → (s.cfg.digits.toNat = 0 ∨ 10 < s.cfg.digits.toNat) →
        t = { t3 with cmdlatch := s.cmdlatch }) ∧
      (s.status.keyvalid = false →
        t = { t3 with cmdlatch := s.cmdlatch, errinfo := ⟨4, 0, 0⟩ } ∧ t3.errinfo = ⟨5, 0, 0⟩)

/-- Derived (43_hotp_control.md section 2, "After `CLR` the state equals the reset state"; the model's choice, log 9:
`CMDLATCH` is kept): `CLR` never faults and leaves the reset state but for `CFG`, `STATUS.OVR` and `STATUS.DONE` = 1; `ERR`
and `ERRINFO` stay as they were, which the issue (R14) has made 0. -/
def Obligations.ClrReturnsToTheResetState : Prop :=
  ∀ s : State, s.params.Legal → OnlyBufferCells s →
    exec .clr s = .next { State.resetWith s.params with
      cfg := s.cfg, cmdlatch := s.cmdlatch, errinfo := s.errinfo, schedule := s.schedule, reply := s.reply,
      status := ⟨false, true, s.status.err, false, false, false, false, s.status.ovr⟩ }

/-! ## Whole-machine rules -/

/-- Derived (10_state.md section 7, "A piece of state changes only by a writer listed for it"; 95_test_vectors.md
section 11): what each command may change, over all commands. -/
def Obligations.CommandsChangeOnlyWhatTheyOwn : Prop :=
  ∀ (i : Instr) (s t : State), s.params.Legal → exec i s = .next t →
    t.cfg = s.cfg ∧ SameControl s t ∧ t.status.busy = false ∧
    SameBytesOutside s t [.txt, .key, .digest, .code] ∧
    (i ≠ .clr → SameInputs s t ∧ ∀ j, j < s.params.textMax → t.cell .txt j = s.cell .txt j) ∧
    (i ≠ .b32dec → i ≠ .clr → SameKey s t ∧ ∀ j, j < s.params.keyMax → t.cell .key j = s.cell .key j) ∧
    (i = .trunc ∨ i = .fmt → t.status.dvalid = s.status.dvalid ∧ ∀ j, j < 20 → t.cell .digest j = s.cell .digest j) ∧
    (i = .fmt → t.status.tvalid = s.status.tvalid ∧ t.trunc = s.trunc)

/-- Derived (10_state.md section 3, "no command but another `B32DEC` or `CLR` changes `KEY` or `KEYLEN`", and the
writers of section 7): a step that changes the key is a hard reset or the completion of `B32DEC` or `CLR`. -/
def Obligations.OnlyDecodeClearAndResetChangeTheKey : Prop :=
  ∀ s t : State, s.params.Legal → step s = .next t →
    (t.status.keyvalid ≠ s.status.keyvalid ∨ t.keylen ≠ s.keylen ∨
      ∃ j, j < s.params.keyMax ∧ t.cell .key j ≠ s.cell .key j) →
    (∃ es, s.schedule = .hardReset :: es) ∨
      ∃ es, CoreNext s es ∧ s.status.busy = true ∧ (s.cmdlatch = encode .b32dec ∨ s.cmdlatch = encode .clr)

/-- Derived (70_reset_and_hazards.md section 3, "results already produced are not invalidated by that"): no bus
transaction changes the key, a result or a valid flag, busy or idle. -/
def Obligations.HostTransactionsKeepResults : Prop :=
  ∀ (s : State) (x : Transaction) (t : State), s.params.Legal → t = s.transact x →
    SameKey s t ∧ t.status.dvalid = s.status.dvalid ∧ t.status.tvalid = s.status.tvalid ∧
    t.status.cvalid = s.status.cvalid ∧ t.trunc = s.trunc ∧ t.codeval = s.codeval ∧ t.codelen = s.codelen ∧
    SameBytesOutside s t [.txt]

/-- Derived (10_state.md section 4: "The following hold in every state reachable from reset"): every step keeps the
invariants, from every state that meets them. -/
def Obligations.EveryStepKeepsTheResultChain : Prop :=
  ∀ s t : State, s.Inv → step s = .next t → t.Inv

/-- Derived (10_state.md section 6): the reset state meets the invariants, with every legal `TEXT_MAX`. -/
def Obligations.ResetMeetsTheResultChain : Prop :=
  ∀ p : Config.Params, p.Legal → (State.resetWith p).Inv

/-! ## The host's arithmetic -/

/-- R180: the range of `GetSecondsRemaining`, the full step exactly on a boundary. -/
def Obligations.SecondsRemainingIsInRange : Prop :=
  ∀ (n : Nat) (x : Int), 0 < n →
    1 ≤ Driver.secondsRemaining n x ∧ Driver.secondsRemaining n x ≤ n ∧
    (Driver.secondsRemaining n x = n ↔ x % n = 0) ∧ (n : Int) - x % n = Driver.secondsRemaining n x

/-- Derived (45_host_sequences.md: "the three counters are `c0 - 1`, `c0`, `c0 + 1`"; R178's floor division and
pattern): the counters of the validation window, and the pattern of counter -1. -/
def Obligations.WindowCountersAreAdjacent : Prop :=
  (∀ (n : Nat) (x d : Int), 0 < n → Driver.timeCounter n (x + d * n) = Driver.timeCounter n x + d) ∧
    (∀ (n : Nat) (x : Int), 0 < n →
      Driver.timeCounter n x * n ≤ x ∧ x < (Driver.timeCounter n x + 1) * n) ∧
    Driver.counterPattern .twosComplement (-1) = some 0xFFFFFFFFFFFFFFFF
end

