-- ==== Sys2Proof/Laws/Memory.lean ====
section
/-! SUPPORT. The laws of the window's byte cells: read after write, the frame of a write, the canonical form kept. -/

namespace Sys2Proof.Machine.Memory

@[simp] theorem get_nil (a : Nat) : get [] a = 0 := rfl

@[simp] theorem zero_nil (base n : Nat) : zero [] base n = [] := rfl

theorem mem_zero_iff (m : Memory) (base n : Nat) (c : Host.Cell) :
    c ∈ zero m base n ↔ c ∈ m ∧ ¬(base ≤ c.1 ∧ c.1 < base + n) := by
  simp only [zero, List.mem_filter, Bool.not_eq_true', Bool.and_eq_false_iff, decide_eq_false_iff_not, not_and]
  constructor <;> rintro ⟨h, h'⟩ <;> exact ⟨h, by omega⟩

/-- A cell is 0x00 after its range is zeroed, and every other cell is as before. -/
theorem get_zero (m : Memory) (base n a : Nat) :
    get (zero m base n) a = if base ≤ a ∧ a < base + n then 0 else get m a := by
  induction m with
  | nil => simp
  | cons c rest ih =>
    obtain ⟨k, v⟩ := c
    by_cases hin : base ≤ k ∧ k < base + n
    · have hz : zero ((k, v) :: rest) base n = zero rest base n := by simp [zero, hin]
      rw [hz, ih, get]
      by_cases hk : k = a
      · subst hk; simp [hin]
      · simp [hk]
    · have hz : zero ((k, v) :: rest) base n = (k, v) :: zero rest base n := by
        simp only [zero, List.filter_cons]
        rw [if_pos]
        simp only [Bool.not_eq_true', Bool.and_eq_false_iff, decide_eq_false_iff_not]
        omega
      rw [hz, get, get, ih]
      by_cases hk : k = a
      · subst hk; simp [hin]
      · simp [hk]

theorem get_insert (m : Memory) (a x : Nat) (b : Byte) :
    get (insert m a b) x = if x = a then b else get m x := by
  induction m with
  | nil =>
    by_cases h : x = a
    · simp [insert, get, h]
    · simp [insert, get, h, Ne.symm h]
  | cons c rest ih =>
    obtain ⟨k, v⟩ := c
    by_cases hlt : a < k
    · by_cases h : x = a
      · simp [insert, get, hlt, h]
      · simp [insert, get, hlt, h, Ne.symm h]
    · by_cases heq : a = k
      · subst heq
        by_cases h : x = a
        · simp [insert, get, h]
        · simp [insert, get, h, Ne.symm h]
      · rw [insert, if_neg hlt, if_neg heq, get, get, ih]
        by_cases hk : k = x
        · subst hk; simp [Ne.symm heq]
        · simp [hk]

/-- Read after write, at the same cell and at every other cell. -/
theorem get_set (m : Memory) (a x : Nat) (b : Byte) : get (set m a b) x = if x = a then b else get m x := by
  by_cases hb : b = blank
  · rw [set, if_pos hb, get_zero]
    by_cases h : x = a
    · subst h; simp [hb, blank]
    · rw [if_neg (by omega), if_neg h]
  · rw [set, if_neg hb, get_insert]

/-- Read after a store of consecutive cells. -/
theorem get_store (bs : List Byte) (m : Memory) (base x : Nat) :
    get (store m base bs) x = if base ≤ x ∧ x < base + bs.length then bs.getD (x - base) 0 else get m x := by
  induction bs generalizing m base with
  | nil => simp [store]
  | cons b bs ih =>
    rw [store, ih, get_set]
    by_cases h1 : x = base
    · subst h1; simp
    · by_cases h2 : base ≤ x ∧ x < base + (b :: bs).length
      · have h3 : base + 1 ≤ x ∧ x < base + 1 + bs.length := by simp at h2; omega
        have h4 : x - base = (x - (base + 1)) + 1 := by omega
        rw [if_pos h3, if_pos h2, h4]; simp
      · have h3 : ¬(base + 1 ≤ x ∧ x < base + 1 + bs.length) := by simp at h2 ⊢; omega
        rw [if_neg h3, if_neg h2, if_neg h1]

@[simp] theorem length_load (m : Memory) (base n : Nat) : (load m base n).length = n := by
  induction n generalizing base with
  | zero => rfl
  | succ n ih => simp [load, ih]

theorem getD_load (m : Memory) (base n i : Nat) (h : i < n) (d : Byte) : (load m base n).getD i d = get m (base + i) := by
  induction n generalizing base i with
  | zero => omega
  | succ n ih =>
    cases i with
    | zero => simp [load]
    | succ i => rw [load, List.getD_cons_succ, ih _ _ (by omega)]; congr 1; omega

/-- A slice depends on its cells only. -/
theorem load_congr (m m' : Memory) (base n : Nat) (h : ∀ a, base ≤ a → a < base + n → get m a = get m' a) :
    load m base n = load m' base n := by
  induction n generalizing base with
  | zero => rfl
  | succ n ih =>
    rw [load, load, h base (by omega) (by omega), ih _ fun a h1 h2 => h a (by omega) (by omega)]

/-- Reading back a stored sequence. -/
theorem load_store (m : Memory) (base : Nat) (bs : List Byte) : load (store m base bs) base bs.length = bs := by
  apply List.ext_getElem (by simp)
  intro i h1 h2
  have h := getD_load (store m base bs) base bs.length i h2 0
  rw [List.getD_eq_getElem _ _ h1] at h
  rw [h, get_store, if_pos ⟨by omega, by omega⟩]
  simp [h2]

/-- A slice of zeroed cells is zeros; in general a slice is read cell by cell. -/
theorem load_eq_map (m : Memory) (base n : Nat) : load m base n = (List.range n).map fun i => get m (base + i) := by
  apply List.ext_getElem (by simp)
  intro i h1 h2
  have hi : i < n := by simpa using h1
  have h := getD_load m base n i hi 0
  rw [List.getD_eq_getElem _ _ h1] at h
  simp [h]

/-! ### The canonical form -/

theorem wf_nil : wf [] := ⟨List.Pairwise.nil, by simp⟩

theorem wf_zero {m : Memory} (h : wf m) (base n : Nat) : wf (zero m base n) :=
  ⟨h.1.filter _, fun c hc => h.2 c ((mem_zero_iff ..).1 hc).1⟩

theorem mem_insert {m : Memory} {a : Nat} {b : Byte} {c : Host.Cell} (h : c ∈ insert m a b) : c = (a, b) ∨ c ∈ m := by
  induction m with
  | nil => simpa [insert] using h
  | cons d rest ih =>
    obtain ⟨k, v⟩ := d
    unfold insert at h
    split at h
    · simpa using h
    · split at h
      · rcases List.mem_cons.1 h with h | h
        · exact .inl h
        · exact .inr (List.mem_cons_of_mem _ h)
      · rcases List.mem_cons.1 h with h | h
        · exact .inr (h ▸ List.mem_cons_self)
        · exact (ih h).imp id (List.mem_cons_of_mem _)

theorem wf_insert {m : Memory} (h : wf m) (a : Nat) {b : Byte} (hb : b ≠ blank) : wf (insert m a b) := by
  refine ⟨?_, fun c hc => (mem_insert hc).elim (fun e => e ▸ hb) (h.2 c)⟩
  replace h := h.1
  induction m with
  | nil => simp [insert]
  | cons d rest ih =>
    obtain ⟨k, v⟩ := d
    obtain ⟨hk, hrest⟩ := List.pairwise_cons.1 h
    unfold insert
    split
    · refine List.pairwise_cons.2 ⟨fun c hc => ?_, h⟩
      rcases List.mem_cons.1 hc with rfl | hc
      · assumption
      · have := hk c hc; simp at this ⊢; omega
    · split
      · subst a; exact List.pairwise_cons.2 ⟨hk, hrest⟩
      · refine List.pairwise_cons.2 ⟨fun c hc => ?_, ih hrest⟩
        rcases mem_insert hc with rfl | hc
        · simp; omega
        · exact hk c hc

theorem wf_set {m : Memory} (h : wf m) (a : Nat) (b : Byte) : wf (set m a b) := by
  unfold set
  split
  · exact wf_zero h _ _
  · exact wf_insert h _ ‹_›

theorem wf_store {m : Memory} (h : wf m) (base : Nat) (bs : List Byte) : wf (store m base bs) := by
  induction bs generalizing m base with
  | nil => exact h
  | cons b bs ih => exact ih (wf_set h _ _) _

/-- What a write lists was listed before or is the written cell. -/
theorem mem_set {m : Memory} {a : Nat} {b : Byte} {c : Host.Cell} (h : c ∈ set m a b) : c = (a, b) ∨ c ∈ m := by
  unfold set at h
  split at h
  · exact .inr ((mem_zero_iff ..).1 h).1
  · exact mem_insert h

theorem mem_store {bs : List Byte} {m : Memory} {base : Nat} {c : Host.Cell} (h : c ∈ store m base bs) :
    c ∈ m ∨ (base ≤ c.1 ∧ c.1 < base + bs.length) := by
  induction bs generalizing m base with
  | nil => exact .inl h
  | cons b bs ih =>
    rcases ih h with h | h
    · rcases mem_set h with rfl | h
      · exact .inr (by simp)
      · exact .inl h
    · exact .inr (by simp; omega)

/-- Zeroing a range nothing is listed in changes nothing. -/
theorem zero_eq_self {m : Memory} {base n : Nat} (h : ∀ c ∈ m, ¬(base ≤ c.1 ∧ c.1 < base + n)) : zero m base n = m := by
  apply List.filter_eq_self.2
  intro c hc
  have := h c hc
  simp; omega

/-- Two memories in canonical form with the same cells are the same list. -/
theorem ext_of_wf {m m' : Memory} (h : wf m) (h' : wf m') (hget : ∀ a, get m a = get m' a) : m = m' := by
  have get_of_mem : ∀ {m : Memory}, m.Pairwise (fun a b => a.1 < b.1) → ∀ c ∈ m, get m c.1 = c.2 := by
    intro m hp c hc
    induction m with
    | nil => simp at hc
    | cons d rest ih =>
      obtain ⟨hd, hr⟩ := List.pairwise_cons.1 hp
      rcases List.mem_cons.1 hc with rfl | hc
      · simp [get]
      · have hne : d.1 ≠ c.1 := by have := hd c hc; omega
        rw [get, if_neg hne, ih hr hc]
  have mem_of_get : ∀ {m : Memory} {a : Nat}, get m a ≠ blank → (a, get m a) ∈ m := by
    intro m a hne
    induction m with
    | nil => exact absurd rfl hne
    | cons d rest ih =>
      obtain ⟨k, v⟩ := d
      by_cases hk : k = a
      · subst hk; simp [get]
      · rw [get, if_neg hk] at hne ⊢
        exact List.mem_cons_of_mem _ (ih hne)
  have sub : ∀ {m m' : Memory}, wf m → (∀ a, get m a = get m' a) → ∀ c ∈ m, c ∈ m' := by
    intro m m' hw hg c hc
    have hgc := get_of_mem hw.1 c hc
    have := mem_of_get (m := m') (a := c.1) (by rw [← hg, hgc]; exact hw.2 c hc)
    rwa [← hg, hgc] at this
  have nodup : ∀ {m : Memory}, wf m → m.Nodup := fun hw => hw.1.imp fun {a b} hab e => by subst e; omega
  have hperm : m.Perm m' :=
    (List.perm_ext_iff_of_nodup (nodup h) (nodup h')).2 fun c => ⟨sub h hget c, sub h' (fun a => (hget a).symm) c⟩
  exact hperm.eq_of_pairwise (fun a b _ _ h1 h2 => by omega) h.1 h'.1

end Sys2Proof.Machine.Memory
end

