-- ==== Sys2Proof/Laws/State.lean ====
section
/-! SUPPORT. One lemma per field per update of the state, each true by rfl. -/

namespace Sys2Proof.Machine.State

variable (s : State)

/-! ### storeBuffer -/

@[simp] theorem storeBuffer_status (b : Buffer) (x : List Byte) : (s.storeBuffer b x).status = s.status := rfl
@[simp] theorem storeBuffer_cfg (b : Buffer) (x : List Byte) : (s.storeBuffer b x).cfg = s.cfg := rfl
@[simp] theorem storeBuffer_txtlen (b : Buffer) (x : List Byte) : (s.storeBuffer b x).txtlen = s.txtlen := rfl
@[simp] theorem storeBuffer_ctrHi (b : Buffer) (x : List Byte) : (s.storeBuffer b x).ctrHi = s.ctrHi := rfl
@[simp] theorem storeBuffer_ctrLo (b : Buffer) (x : List Byte) : (s.storeBuffer b x).ctrLo = s.ctrLo := rfl
@[simp] theorem storeBuffer_keylen (b : Buffer) (x : List Byte) : (s.storeBuffer b x).keylen = s.keylen := rfl
@[simp] theorem storeBuffer_errinfo (b : Buffer) (x : List Byte) : (s.storeBuffer b x).errinfo = s.errinfo := rfl
@[simp] theorem storeBuffer_trunc (b : Buffer) (x : List Byte) : (s.storeBuffer b x).trunc = s.trunc := rfl
@[simp] theorem storeBuffer_codeval (b : Buffer) (x : List Byte) : (s.storeBuffer b x).codeval = s.codeval := rfl
@[simp] theorem storeBuffer_codelen (b : Buffer) (x : List Byte) : (s.storeBuffer b x).codelen = s.codelen := rfl
@[simp] theorem storeBuffer_cmdlatch (b : Buffer) (x : List Byte) : (s.storeBuffer b x).cmdlatch = s.cmdlatch := rfl
@[simp] theorem storeBuffer_params (b : Buffer) (x : List Byte) : (s.storeBuffer b x).params = s.params := rfl
@[simp] theorem storeBuffer_mem (b : Buffer) (x : List Byte) :
    (s.storeBuffer b x).mem = Memory.store s.mem b.base x := rfl
@[simp] theorem storeBuffer_schedule (b : Buffer) (x : List Byte) : (s.storeBuffer b x).schedule = s.schedule := rfl
@[simp] theorem storeBuffer_reply (b : Buffer) (x : List Byte) : (s.storeBuffer b x).reply = s.reply := rfl

/-! ### setCell -/

@[simp] theorem setCell_status (b : Buffer) (i : Nat) (v : Byte) : (s.setCell b i v).status = s.status := rfl
@[simp] theorem setCell_cfg (b : Buffer) (i : Nat) (v : Byte) : (s.setCell b i v).cfg = s.cfg := rfl
@[simp] theorem setCell_txtlen (b : Buffer) (i : Nat) (v : Byte) : (s.setCell b i v).txtlen = s.txtlen := rfl
@[simp] theorem setCell_ctrHi (b : Buffer) (i : Nat) (v : Byte) : (s.setCell b i v).ctrHi = s.ctrHi := rfl
@[simp] theorem setCell_ctrLo (b : Buffer) (i : Nat) (v : Byte) : (s.setCell b i v).ctrLo = s.ctrLo := rfl
@[simp] theorem setCell_keylen (b : Buffer) (i : Nat) (v : Byte) : (s.setCell b i v).keylen = s.keylen := rfl
@[simp] theorem setCell_errinfo (b : Buffer) (i : Nat) (v : Byte) : (s.setCell b i v).errinfo = s.errinfo := rfl
@[simp] theorem setCell_trunc (b : Buffer) (i : Nat) (v : Byte) : (s.setCell b i v).trunc = s.trunc := rfl
@[simp] theorem setCell_codeval (b : Buffer) (i : Nat) (v : Byte) : (s.setCell b i v).codeval = s.codeval := rfl
@[simp] theorem setCell_codelen (b : Buffer) (i : Nat) (v : Byte) : (s.setCell b i v).codelen = s.codelen := rfl
@[simp] theorem setCell_cmdlatch (b : Buffer) (i : Nat) (v : Byte) : (s.setCell b i v).cmdlatch = s.cmdlatch := rfl
@[simp] theorem setCell_params (b : Buffer) (i : Nat) (v : Byte) : (s.setCell b i v).params = s.params := rfl
@[simp] theorem setCell_mem (b : Buffer) (i : Nat) (v : Byte) :
    (s.setCell b i v).mem = Memory.set s.mem (b.base + i) v := rfl
@[simp] theorem setCell_schedule (b : Buffer) (i : Nat) (v : Byte) : (s.setCell b i v).schedule = s.schedule := rfl
@[simp] theorem setCell_reply (b : Buffer) (i : Nat) (v : Byte) : (s.setCell b i v).reply = s.reply := rfl

/-! ### zeroBuffer -/

@[simp] theorem zeroBuffer_status (b : Buffer) : (s.zeroBuffer b).status = s.status := rfl
@[simp] theorem zeroBuffer_cfg (b : Buffer) : (s.zeroBuffer b).cfg = s.cfg := rfl
@[simp] theorem zeroBuffer_txtlen (b : Buffer) : (s.zeroBuffer b).txtlen = s.txtlen := rfl
@[simp] theorem zeroBuffer_ctrHi (b : Buffer) : (s.zeroBuffer b).ctrHi = s.ctrHi := rfl
@[simp] theorem zeroBuffer_ctrLo (b : Buffer) : (s.zeroBuffer b).ctrLo = s.ctrLo := rfl
@[simp] theorem zeroBuffer_keylen (b : Buffer) : (s.zeroBuffer b).keylen = s.keylen := rfl
@[simp] theorem zeroBuffer_errinfo (b : Buffer) : (s.zeroBuffer b).errinfo = s.errinfo := rfl
@[simp] theorem zeroBuffer_trunc (b : Buffer) : (s.zeroBuffer b).trunc = s.trunc := rfl
@[simp] theorem zeroBuffer_codeval (b : Buffer) : (s.zeroBuffer b).codeval = s.codeval := rfl
@[simp] theorem zeroBuffer_codelen (b : Buffer) : (s.zeroBuffer b).codelen = s.codelen := rfl
@[simp] theorem zeroBuffer_cmdlatch (b : Buffer) : (s.zeroBuffer b).cmdlatch = s.cmdlatch := rfl
@[simp] theorem zeroBuffer_params (b : Buffer) : (s.zeroBuffer b).params = s.params := rfl
@[simp] theorem zeroBuffer_mem (b : Buffer) :
    (s.zeroBuffer b).mem = Memory.zero s.mem b.base (b.size s.params) := rfl
@[simp] theorem zeroBuffer_schedule (b : Buffer) : (s.zeroBuffer b).schedule = s.schedule := rfl
@[simp] theorem zeroBuffer_reply (b : Buffer) : (s.zeroBuffer b).reply = s.reply := rfl

/-! ### invalidateCode -/

@[simp] theorem invalidateCode_status : (s.invalidateCode).status = { s.status with cvalid := false } := rfl
@[simp] theorem invalidateCode_cfg : (s.invalidateCode).cfg = s.cfg := rfl
@[simp] theorem invalidateCode_txtlen : (s.invalidateCode).txtlen = s.txtlen := rfl
@[simp] theorem invalidateCode_ctrHi : (s.invalidateCode).ctrHi = s.ctrHi := rfl
@[simp] theorem invalidateCode_ctrLo : (s.invalidateCode).ctrLo = s.ctrLo := rfl
@[simp] theorem invalidateCode_keylen : (s.invalidateCode).keylen = s.keylen := rfl
@[simp] theorem invalidateCode_errinfo : (s.invalidateCode).errinfo = s.errinfo := rfl
@[simp] theorem invalidateCode_trunc : (s.invalidateCode).trunc = s.trunc := rfl
@[simp] theorem invalidateCode_codeval : (s.invalidateCode).codeval = 0 := rfl
@[simp] theorem invalidateCode_codelen : (s.invalidateCode).codelen = 0 := rfl
@[simp] theorem invalidateCode_cmdlatch : (s.invalidateCode).cmdlatch = s.cmdlatch := rfl
@[simp] theorem invalidateCode_params : (s.invalidateCode).params = s.params := rfl
@[simp] theorem invalidateCode_mem :
    (s.invalidateCode).mem = Memory.zero s.mem Buffer.code.base Config.codeMax := rfl
@[simp] theorem invalidateCode_schedule : (s.invalidateCode).schedule = s.schedule := rfl
@[simp] theorem invalidateCode_reply : (s.invalidateCode).reply = s.reply := rfl

/-! ### invalidateTrunc -/

@[simp] theorem invalidateTrunc_status :
    (s.invalidateTrunc).status = { s.status with tvalid := false, cvalid := false } := rfl
@[simp] theorem invalidateTrunc_cfg : (s.invalidateTrunc).cfg = s.cfg := rfl
@[simp] theorem invalidateTrunc_txtlen : (s.invalidateTrunc).txtlen = s.txtlen := rfl
@[simp] theorem invalidateTrunc_ctrHi : (s.invalidateTrunc).ctrHi = s.ctrHi := rfl
@[simp] theorem invalidateTrunc_ctrLo : (s.invalidateTrunc).ctrLo = s.ctrLo := rfl
@[simp] theorem invalidateTrunc_keylen : (s.invalidateTrunc).keylen = s.keylen := rfl
@[simp] theorem invalidateTrunc_errinfo : (s.invalidateTrunc).errinfo = s.errinfo := rfl
@[simp] theorem invalidateTrunc_trunc : (s.invalidateTrunc).trunc = 0 := rfl
@[simp] theorem invalidateTrunc_codeval : (s.invalidateTrunc).codeval = 0 := rfl
@[simp] theorem invalidateTrunc_codelen : (s.invalidateTrunc).codelen = 0 := rfl
@[simp] theorem invalidateTrunc_cmdlatch : (s.invalidateTrunc).cmdlatch = s.cmdlatch := rfl
@[simp] theorem invalidateTrunc_params : (s.invalidateTrunc).params = s.params := rfl
@[simp] theorem invalidateTrunc_mem :
    (s.invalidateTrunc).mem = Memory.zero s.mem Buffer.code.base Config.codeMax := rfl
@[simp] theorem invalidateTrunc_schedule : (s.invalidateTrunc).schedule = s.schedule := rfl
@[simp] theorem invalidateTrunc_reply : (s.invalidateTrunc).reply = s.reply := rfl

/-! ### invalidateDigest -/

@[simp] theorem invalidateDigest_status :
    (s.invalidateDigest).status = { s.status with dvalid := false, tvalid := false, cvalid := false } := rfl
@[simp] theorem invalidateDigest_cfg : (s.invalidateDigest).cfg = s.cfg := rfl
@[simp] theorem invalidateDigest_txtlen : (s.invalidateDigest).txtlen = s.txtlen := rfl
@[simp] theorem invalidateDigest_ctrHi : (s.invalidateDigest).ctrHi = s.ctrHi := rfl
@[simp] theorem invalidateDigest_ctrLo : (s.invalidateDigest).ctrLo = s.ctrLo := rfl
@[simp] theorem invalidateDigest_keylen : (s.invalidateDigest).keylen = s.keylen := rfl
@[simp] theorem invalidateDigest_errinfo : (s.invalidateDigest).errinfo = s.errinfo := rfl
@[simp] theorem invalidateDigest_trunc : (s.invalidateDigest).trunc = 0 := rfl
@[simp] theorem invalidateDigest_codeval : (s.invalidateDigest).codeval = 0 := rfl
@[simp] theorem invalidateDigest_codelen : (s.invalidateDigest).codelen = 0 := rfl
@[simp] theorem invalidateDigest_cmdlatch : (s.invalidateDigest).cmdlatch = s.cmdlatch := rfl
@[simp] theorem invalidateDigest_params : (s.invalidateDigest).params = s.params := rfl
@[simp] theorem invalidateDigest_mem :
    (s.invalidateDigest).mem = Memory.zero (Memory.zero s.mem Buffer.code.base Config.codeMax) Buffer.digest.base Config.digestLen := rfl
@[simp] theorem invalidateDigest_schedule : (s.invalidateDigest).schedule = s.schedule := rfl
@[simp] theorem invalidateDigest_reply : (s.invalidateDigest).reply = s.reply := rfl

/-! ### invalidateKey -/

@[simp] theorem invalidateKey_status :
    (s.invalidateKey).status = { s.status with keyvalid := false, dvalid := false, tvalid := false, cvalid := false } := rfl
@[simp] theorem invalidateKey_cfg : (s.invalidateKey).cfg = s.cfg := rfl
@[simp] theorem invalidateKey_txtlen : (s.invalidateKey).txtlen = s.txtlen := rfl
@[simp] theorem invalidateKey_ctrHi : (s.invalidateKey).ctrHi = s.ctrHi := rfl
@[simp] theorem invalidateKey_ctrLo : (s.invalidateKey).ctrLo = s.ctrLo := rfl
@[simp] theorem invalidateKey_keylen : (s.invalidateKey).keylen = 0 := rfl
@[simp] theorem invalidateKey_errinfo : (s.invalidateKey).errinfo = s.errinfo := rfl
@[simp] theorem invalidateKey_trunc : (s.invalidateKey).trunc = 0 := rfl
@[simp] theorem invalidateKey_codeval : (s.invalidateKey).codeval = 0 := rfl
@[simp] theorem invalidateKey_codelen : (s.invalidateKey).codelen = 0 := rfl
@[simp] theorem invalidateKey_cmdlatch : (s.invalidateKey).cmdlatch = s.cmdlatch := rfl
@[simp] theorem invalidateKey_params : (s.invalidateKey).params = s.params := rfl
@[simp] theorem invalidateKey_mem :
    (s.invalidateKey).mem = Memory.zero (Memory.zero (Memory.zero s.mem Buffer.code.base Config.codeMax) Buffer.digest.base Config.digestLen)
      Buffer.key.base s.params.keyMax := rfl
@[simp] theorem invalidateKey_schedule : (s.invalidateKey).schedule = s.schedule := rfl
@[simp] theorem invalidateKey_reply : (s.invalidateKey).reply = s.reply := rfl

/-! ### issue -/

@[simp] theorem issue_status (v : Word) :
    (s.issue v).status = { s.status with busy := true, done := false, err := false } := rfl
@[simp] theorem issue_cfg (v : Word) : (s.issue v).cfg = s.cfg := rfl
@[simp] theorem issue_txtlen (v : Word) : (s.issue v).txtlen = s.txtlen := rfl
@[simp] theorem issue_ctrHi (v : Word) : (s.issue v).ctrHi = s.ctrHi := rfl
@[simp] theorem issue_ctrLo (v : Word) : (s.issue v).ctrLo = s.ctrLo := rfl
@[simp] theorem issue_keylen (v : Word) : (s.issue v).keylen = s.keylen := rfl
@[simp] theorem issue_errinfo (v : Word) : (s.issue v).errinfo = ⟨0, 0, 0⟩ := rfl
@[simp] theorem issue_trunc (v : Word) : (s.issue v).trunc = s.trunc := rfl
@[simp] theorem issue_codeval (v : Word) : (s.issue v).codeval = s.codeval := rfl
@[simp] theorem issue_codelen (v : Word) : (s.issue v).codelen = s.codelen := rfl
@[simp] theorem issue_cmdlatch (v : Word) : (s.issue v).cmdlatch = v := rfl
@[simp] theorem issue_params (v : Word) : (s.issue v).params = s.params := rfl
@[simp] theorem issue_mem (v : Word) : (s.issue v).mem = s.mem := rfl
@[simp] theorem issue_schedule (v : Word) : (s.issue v).schedule = s.schedule := rfl
@[simp] theorem issue_reply (v : Word) : (s.issue v).reply = s.reply := rfl

/-! ### completeOk -/

@[simp] theorem completeOk_status : (s.completeOk).status = { s.status with busy := false, done := true } := rfl
@[simp] theorem completeOk_cfg : (s.completeOk).cfg = s.cfg := rfl
@[simp] theorem completeOk_txtlen : (s.completeOk).txtlen = s.txtlen := rfl
@[simp] theorem completeOk_ctrHi : (s.completeOk).ctrHi = s.ctrHi := rfl
@[simp] theorem completeOk_ctrLo : (s.completeOk).ctrLo = s.ctrLo := rfl
@[simp] theorem completeOk_keylen : (s.completeOk).keylen = s.keylen := rfl
@[simp] theorem completeOk_errinfo : (s.completeOk).errinfo = s.errinfo := rfl
@[simp] theorem completeOk_trunc : (s.completeOk).trunc = s.trunc := rfl
@[simp] theorem completeOk_codeval : (s.completeOk).codeval = s.codeval := rfl
@[simp] theorem completeOk_codelen : (s.completeOk).codelen = s.codelen := rfl
@[simp] theorem completeOk_cmdlatch : (s.completeOk).cmdlatch = s.cmdlatch := rfl
@[simp] theorem completeOk_params : (s.completeOk).params = s.params := rfl
@[simp] theorem completeOk_mem : (s.completeOk).mem = s.mem := rfl
@[simp] theorem completeOk_schedule : (s.completeOk).schedule = s.schedule := rfl
@[simp] theorem completeOk_reply : (s.completeOk).reply = s.reply := rfl

/-! ### enterFault -/

@[simp] theorem enterFault_status (r : Raise) :
    (s.enterFault r).status = { s.status with busy := false, err := true } := rfl
@[simp] theorem enterFault_cfg (r : Raise) : (s.enterFault r).cfg = s.cfg := rfl
@[simp] theorem enterFault_txtlen (r : Raise) : (s.enterFault r).txtlen = s.txtlen := rfl
@[simp] theorem enterFault_ctrHi (r : Raise) : (s.enterFault r).ctrHi = s.ctrHi := rfl
@[simp] theorem enterFault_ctrLo (r : Raise) : (s.enterFault r).ctrLo = s.ctrLo := rfl
@[simp] theorem enterFault_keylen (r : Raise) : (s.enterFault r).keylen = s.keylen := rfl
@[simp] theorem enterFault_errinfo (r : Raise) : (s.enterFault r).errinfo = ⟨r.code.number, r.chr, r.pos⟩ := rfl
@[simp] theorem enterFault_trunc (r : Raise) : (s.enterFault r).trunc = s.trunc := rfl
@[simp] theorem enterFault_codeval (r : Raise) : (s.enterFault r).codeval = s.codeval := rfl
@[simp] theorem enterFault_codelen (r : Raise) : (s.enterFault r).codelen = s.codelen := rfl
@[simp] theorem enterFault_cmdlatch (r : Raise) : (s.enterFault r).cmdlatch = s.cmdlatch := rfl
@[simp] theorem enterFault_params (r : Raise) : (s.enterFault r).params = s.params := rfl
@[simp] theorem enterFault_mem (r : Raise) : (s.enterFault r).mem = s.mem := rfl
@[simp] theorem enterFault_schedule (r : Raise) : (s.enterFault r).schedule = s.schedule := rfl
@[simp] theorem enterFault_reply (r : Raise) : (s.enterFault r).reply = s.reply := rfl

/-! ### acknowledge -/

@[simp] theorem acknowledge_status (v : Word) : (s.acknowledge v).status = s.status.writeOneToClear v := rfl
@[simp] theorem acknowledge_cfg (v : Word) : (s.acknowledge v).cfg = s.cfg := rfl
@[simp] theorem acknowledge_txtlen (v : Word) : (s.acknowledge v).txtlen = s.txtlen := rfl
@[simp] theorem acknowledge_ctrHi (v : Word) : (s.acknowledge v).ctrHi = s.ctrHi := rfl
@[simp] theorem acknowledge_ctrLo (v : Word) : (s.acknowledge v).ctrLo = s.ctrLo := rfl
@[simp] theorem acknowledge_keylen (v : Word) : (s.acknowledge v).keylen = s.keylen := rfl
@[simp] theorem acknowledge_errinfo (v : Word) : (s.acknowledge v).errinfo = s.errinfo := rfl
@[simp] theorem acknowledge_trunc (v : Word) : (s.acknowledge v).trunc = s.trunc := rfl
@[simp] theorem acknowledge_codeval (v : Word) : (s.acknowledge v).codeval = s.codeval := rfl
@[simp] theorem acknowledge_codelen (v : Word) : (s.acknowledge v).codelen = s.codelen := rfl
@[simp] theorem acknowledge_cmdlatch (v : Word) : (s.acknowledge v).cmdlatch = s.cmdlatch := rfl
@[simp] theorem acknowledge_params (v : Word) : (s.acknowledge v).params = s.params := rfl
@[simp] theorem acknowledge_mem (v : Word) : (s.acknowledge v).mem = s.mem := rfl
@[simp] theorem acknowledge_schedule (v : Word) : (s.acknowledge v).schedule = s.schedule := rfl
@[simp] theorem acknowledge_reply (v : Word) : (s.acknowledge v).reply = s.reply := rfl

/-! ### dropWrite -/

@[simp] theorem dropWrite_status : (s.dropWrite).status = { s.status with ovr := true } := rfl
@[simp] theorem dropWrite_cfg : (s.dropWrite).cfg = s.cfg := rfl
@[simp] theorem dropWrite_txtlen : (s.dropWrite).txtlen = s.txtlen := rfl
@[simp] theorem dropWrite_ctrHi : (s.dropWrite).ctrHi = s.ctrHi := rfl
@[simp] theorem dropWrite_ctrLo : (s.dropWrite).ctrLo = s.ctrLo := rfl
@[simp] theorem dropWrite_keylen : (s.dropWrite).keylen = s.keylen := rfl
@[simp] theorem dropWrite_errinfo : (s.dropWrite).errinfo = s.errinfo := rfl
@[simp] theorem dropWrite_trunc : (s.dropWrite).trunc = s.trunc := rfl
@[simp] theorem dropWrite_codeval : (s.dropWrite).codeval = s.codeval := rfl
@[simp] theorem dropWrite_codelen : (s.dropWrite).codelen = s.codelen := rfl
@[simp] theorem dropWrite_cmdlatch : (s.dropWrite).cmdlatch = s.cmdlatch := rfl
@[simp] theorem dropWrite_params : (s.dropWrite).params = s.params := rfl
@[simp] theorem dropWrite_mem : (s.dropWrite).mem = s.mem := rfl
@[simp] theorem dropWrite_schedule : (s.dropWrite).schedule = s.schedule := rfl
@[simp] theorem dropWrite_reply : (s.dropWrite).reply = s.reply := rfl

end Sys2Proof.Machine.State
end

