-- ==== Sys2Proof/Laws/Ops.lean ====
section
/-! SUPPORT. What the shared operations do to the window's cells, and what a body's completion leaves. -/

namespace Sys2Proof.Machine

namespace Buffer

@[simp] theorem base_digest : Buffer.digest.base = 0x40 := rfl
@[simp] theorem base_code : Buffer.code.base = 0x60 := rfl
@[simp] theorem base_txt : Buffer.txt.base = 0x1000 := rfl
@[simp] theorem base_key : Buffer.key.base = 0x2000 := rfl
@[simp] theorem size_digest (p : Config.Params) : Buffer.digest.size p = 20 := rfl
@[simp] theorem size_code (p : Config.Params) : Buffer.code.size p = 10 := rfl
@[simp] theorem size_txt (p : Config.Params) : Buffer.txt.size p = p.textMax := rfl
@[simp] theorem size_key (p : Config.Params) : Buffer.key.size p = p.keyMax := rfl

end Buffer

namespace State

variable (s : State)

/-! ### Cells after an operation -/

theorem readByte_storeBuffer (b : Buffer) (x : List Byte) (a : Nat) :
    (s.storeBuffer b x).readByte a =
      if b.base ≤ a ∧ a < b.base + x.length then x.getD (a - b.base) 0 else s.readByte a :=
  Memory.get_store ..

theorem readByte_setCell (b : Buffer) (i : Nat) (v : Byte) (a : Nat) :
    (s.setCell b i v).readByte a = if a = b.base + i then v else s.readByte a :=
  Memory.get_set ..

theorem readByte_zeroBuffer (b : Buffer) (a : Nat) :
    (s.zeroBuffer b).readByte a = if InBuffer s.params b a then 0 else s.readByte a :=
  Memory.get_zero ..

theorem readByte_invalidateCode (a : Nat) :
    s.invalidateCode.readByte a = if InBuffer s.params .code a then 0 else s.readByte a :=
  Memory.get_zero ..

theorem readByte_invalidateTrunc (a : Nat) :
    s.invalidateTrunc.readByte a = if InBuffer s.params .code a then 0 else s.readByte a :=
  Memory.get_zero ..

theorem readByte_invalidateDigest (a : Nat) :
    s.invalidateDigest.readByte a =
      if InBuffer s.params .digest a ∨ InBuffer s.params .code a then 0 else s.readByte a := by
  have h : s.invalidateDigest.readByte a =
      if InBuffer s.params .digest a then 0 else s.invalidateCode.readByte a := Memory.get_zero ..
  rw [h, readByte_invalidateCode, ← ite_or]

theorem readByte_invalidateKey (a : Nat) :
    s.invalidateKey.readByte a =
      if InBuffer s.params .key a ∨ InBuffer s.params .digest a ∨ InBuffer s.params .code a then 0
      else s.readByte a := by
  have h : s.invalidateKey.readByte a =
      if InBuffer s.params .key a then 0 else s.invalidateDigest.readByte a := Memory.get_zero ..
  rw [h, readByte_invalidateDigest, ← ite_or]

/-! ### Slices -/

@[simp] theorem length_slice (b : Buffer) (n : Nat) : (s.slice b n).length = n := Memory.length_load ..

@[simp] theorem length_keyBytes : s.keyBytes.length = s.keylen.toNat := length_slice ..

@[simp] theorem length_text : s.text.length = s.txtlen.toNat := length_slice ..

@[simp] theorem length_digestBytes : s.digestBytes.length = 20 := length_slice ..

theorem getD_slice (b : Buffer) (n i : Nat) (h : i < n) (d : Byte) : (s.slice b n).getD i d = s.cell b i :=
  Memory.getD_load _ _ _ _ h d

/-- A slice depends on its cells only. -/
theorem slice_congr {s t : State} {b : Buffer} {n : Nat} (h : ∀ i, i < n → t.cell b i = s.cell b i) :
    t.slice b n = s.slice b n :=
  Memory.load_congr _ _ _ _ fun a h1 h2 => by
    have := h (a - b.base) (by omega)
    rwa [cell, cell, readByte, readByte, show b.base + (a - b.base) = a by omega] at this

theorem slice_storeBuffer (b : Buffer) (x : List Byte) : (s.storeBuffer b x).slice b x.length = x :=
  Memory.load_store ..

/-- A slice of `n` cells that are those of `x`. -/
theorem slice_eq_of_cells {s : State} {b : Buffer} {x : List Byte} (h : ∀ i, i < x.length → s.cell b i = x.getD i 0) :
    s.slice b x.length = x := by
  apply List.ext_getElem (by simp)
  intro i h1 h2
  have h3 := getD_slice s b x.length i h2 0
  rw [List.getD_eq_getElem _ _ h1] at h3
  rw [h3, h i h2, List.getD_eq_getElem _ _ h2]

end State

/-! ### Register images -/

/-- One flag of a register is at its own bit and nowhere else. -/
theorem getLsbD_flagBit (b : Bool) (i j : Nat) (hj : j < 32) : (flagBit b i).getLsbD j = (b && decide (j = i)) := by
  simp only [flagBit, BitVec.getLsbD_shiftLeft, BitVec.getLsbD_setWidth, BitVec.getLsbD_ofBool, hj, decide_true,
    Bool.true_and]
  cases b <;> by_cases h : j = i <;> (simp [h]; try omega)

/-! ### The completion of a body -/

@[simp] theorem Body.finish_ended (s : State) : (Body.ended s).finish = s.completeOk := rfl

@[simp] theorem Body.finish_raised (s : State) (r : Raise) : (Body.raised s r).finish = s.enterFault r := rfl

@[simp] theorem Body.ended_andThen (s : State) (f : State → Body) : (Body.ended s).andThen f = f s := rfl

@[simp] theorem Body.raised_andThen (s : State) (r : Raise) (f : State → Body) :
    (Body.raised s r).andThen f = .raised s r := rfl

/-- The one answer of a command: the completion of its body. -/
theorem exec_eq (i : Instr) (s : State) : exec i s = .next (match i with
    | .b32dec => (b32decBody s).finish
    | .hmac => (hmacBody s).finish
    | .trunc => (truncBody s).finish
    | .fmt => (fmtBody s).finish
    | .hotp => (hotpBody s).finish
    | .clr => (clrBody s).finish) := by
  cases i <;> rfl

theorem exec_b32dec (s : State) : exec .b32dec s = .next (b32decBody s).finish := rfl

theorem exec_hmac (s : State) : exec .hmac s = .next (hmacBody s).finish := rfl

theorem exec_trunc (s : State) : exec .trunc s = .next (truncBody s).finish := rfl

theorem exec_fmt (s : State) : exec .fmt s = .next (fmtBody s).finish := rfl

theorem exec_hotp (s : State) : exec .hotp s = .next (hotpBody s).finish := rfl

theorem exec_clr (s : State) : exec .clr s = .next (clrBody s).finish := rfl

/-- The reset memory is in canonical form. -/
theorem reset_mem_wf : Memory.wf State.reset.mem := Memory.wf_nil

/-- R6 with R5: the key buffer holds what the longest text decodes to, and lies inside the window. -/
theorem keyMax_le {p : Config.Params} (h : p.Legal) : p.keyMax ≤ 2560 := by
  unfold Config.Params.keyMax; omega

end Sys2Proof.Machine
end

