-- ==== Sys2Proof/Laws/Base32.lean ====
section
/-! SUPPORT. The decoder's loop: the number of bytes it emits, and where it stops. -/

namespace Sys2Proof.Machine

/-- The strip shortens the text or leaves it. -/
theorem length_stripPad_le (t : List Byte) : (stripPad t).length ≤ t.length := by
  induction t with
  | nil => simp [stripPad]
  | cons c cs ih =>
    unfold stripPad
    split
    · split <;> simp
    · rename_i r rs h
      rw [h] at ih
      simp at ih ⊢; omega

/-- One turn of the loop on a character of value `v`. -/
theorem b32Loop_cons_some {c : Byte} {v : BitVec 5} (h : b32Class c = some v) (cs : List Byte) (i acc nbits : Nat)
    (out : List Byte) :
    b32Loop (c :: cs) i acc nbits out =
      if 3 ≤ nbits then
        b32Loop cs (i + 1) ((acc <<< 5 ||| v.toNat) &&& (1 <<< (nbits - 3) - 1)) (nbits - 3)
          (out ++ [BitVec.ofNat 8 ((acc <<< 5 ||| v.toNat) >>> (nbits - 3) &&& 0xFF)])
      else b32Loop cs (i + 1) (acc <<< 5 ||| v.toNat) (nbits + 5) out := by
  rw [b32Loop, h]
  by_cases h3 : 3 ≤ nbits
  · simp only [if_pos h3, if_pos (show 8 ≤ nbits + 5 by omega), show nbits + 5 - 8 = nbits - 3 by omega]
  · simp only [if_neg h3, if_neg (show ¬8 ≤ nbits + 5 by omega)]

theorem b32Loop_cons_none {c : Byte} (h : b32Class c = none) (cs : List Byte) (i acc nbits : Nat) (out : List Byte) :
    b32Loop (c :: cs) i acc nbits out = .err c i := by
  rw [b32Loop, h]

/-- Bits in, bytes out: eight bits leave the accumulator per byte, and fewer than eight remain. -/
theorem b32Loop_length (cs : List Byte) (i acc nbits : Nat) (out out' : List Byte) (hn : nbits < 8)
    (h : b32Loop cs i acc nbits out = .ok out') : out'.length = out.length + (nbits + 5 * cs.length) / 8 := by
  induction cs generalizing i acc nbits out with
  | nil =>
    injection h with h
    subst h; simp; omega
  | cons c cs ih =>
    cases hc : b32Class c with
    | none => rw [b32Loop_cons_none hc] at h; cases h
    | some v =>
      rw [b32Loop_cons_some hc] at h
      split at h
      · have := ih _ _ _ _ (by omega) h
        simp at this ⊢; omega
      · have := ih _ _ _ _ (by omega) h
        simp at this ⊢; omega

/-- The loop fails exactly at the first cell outside the alphabet. -/
theorem b32Loop_err (cs : List Byte) (i acc nbits : Nat) (out : List Byte) (chr : Byte) (pos : Nat) :
    b32Loop cs i acc nbits out = .err chr pos ↔
      ∃ j, pos = i + j ∧ cs[j]? = some chr ∧ b32Class chr = none ∧
        ∀ k, k < j → ∀ x, cs[k]? = some x → b32Class x ≠ none := by
  induction cs generalizing i acc nbits out with
  | nil => simp [b32Loop]
  | cons c cs ih =>
    cases hc : b32Class c with
    | none =>
      rw [b32Loop_cons_none hc]
      constructor
      · intro h
        injection h with h1 h2
        subst h1 h2
        exact ⟨0, rfl, rfl, hc, by omega⟩
      · rintro ⟨j, hp, hj, -, hall⟩
        cases j with
        | zero => simp at hj; simp [hj, hp]
        | succ j => exact absurd hc (hall 0 (by omega) c rfl)
    | some v =>
      have hrec : ∀ acc' nbits' out', b32Loop cs (i + 1) acc' nbits' out' = .err chr pos ↔
          ∃ j, pos = i + j ∧ (c :: cs)[j]? = some chr ∧ b32Class chr = none ∧
            ∀ k, k < j → ∀ x, (c :: cs)[k]? = some x → b32Class x ≠ none := by
        intro acc' nbits' out'
        rw [ih]
        constructor
        · rintro ⟨j, hp, hj, hn, hall⟩
          refine ⟨j + 1, by omega, by simpa using hj, hn, ?_⟩
          intro k hk x hx
          cases k with
          | zero => simp at hx; subst hx; simp [hc]
          | succ k => exact hall k (by omega) x (by simpa using hx)
        · rintro ⟨j, hp, hj, hn, hall⟩
          cases j with
          | zero => simp at hj; subst hj; rw [hc] at hn; cases hn
          | succ j =>
            refine ⟨j, by omega, by simpa using hj, hn, fun k hk x hx => ?_⟩
            exact hall (k + 1) (by omega) x (by simpa using hx)
      rw [b32Loop_cons_some hc]
      split
      · exact hrec ..
      · exact hrec ..

/-- What the decoder emits fits the key buffer when the text fits the text buffer (R6). -/
theorem length_le_keyMax {s : State} {out : List Byte} (ht : s.txtlen.toNat ≤ s.params.textMax)
    (h : b32Decode s.text = .ok out) : out.length ≤ s.params.keyMax := by
  have h1 := b32Loop_length _ _ _ _ _ _ (by omega) h
  have h2 := length_stripPad_le s.text
  simp at h1 h2
  unfold Config.Params.keyMax
  omega

end Sys2Proof.Machine
end

