-- ==== Sys2Proof/Laws/Bus.lean ====
section
/-! SUPPORT. The address map by offsets: which transactions the window accepts, and what each offset names. -/

namespace Sys2Proof.Machine

theorem Reg.at?_eq_some_iff (off : Nat) (r : Reg) : Reg.at? off = some r ↔ off = r.offset := by
  constructor
  · intro h
    have h' : (r.offset == off) = true := List.find?_some (p := fun r : Reg => r.offset == off) h
    exact (beq_iff_eq.1 h').symm
  · rintro rfl
    cases r <;> rfl

theorem Reg.at?_eq_none_iff (off : Nat) : Reg.at? off = none ↔ ¬(off % 4 = 0 ∧ off ≤ 0x2C) := by
  constructor
  · rintro h ⟨h1, h2⟩
    have key : ∀ r : Reg, off ≠ r.offset := fun r hr => by
      rw [(Reg.at?_eq_some_iff off r).2 hr] at h; cases h
    have := key .cmd; have := key .status; have := key .cfg; have := key .txtlen; have := key .ctrHi
    have := key .ctrLo; have := key .keylen; have := key .errinfo; have := key .trunc; have := key .codeval
    have := key .codelen; have := key .param
    simp only [Reg.offset] at *
    omega
  · intro h
    cases hr : Reg.at? off with
    | none => rfl
    | some r =>
      have := (Reg.at?_eq_some_iff off r).1 hr
      exfalso
      cases r <;> simp only [Reg.offset] at this <;> omega

theorem locate_four (p : Config.Params) (r : Reg) : locate p r.offset .four = some (.reg r) := by
  rw [locate, (Reg.at?_eq_some_iff _ r).2 rfl]; rfl

theorem Buffer.cellAt?_of_in {p : Config.Params} {b : Buffer} {off : Nat} (h : InBuffer p b off) :
    b.cellAt? p off = some (.cell b (off - b.base)) := if_pos h

theorem Buffer.cellAt?_of_not {p : Config.Params} {b : Buffer} {off : Nat} (h : ¬InBuffer p b off) :
    b.cellAt? p off = none := if_neg h

/-- A cell's offset names that cell: the four buffers do not overlap. -/
theorem locate_one {p : Config.Params} (hp : p.Legal) {b : Buffer} {off : Nat} (h : InBuffer p b off) :
    locate p off .one = some (.cell b (off - b.base)) := by
  have hk := hp.2
  have key : ∀ b' : Buffer, b' ≠ b → ¬InBuffer p b' off := by
    intro b' hne h'
    cases b <;> cases b' <;>
      simp only [InBuffer, Buffer.base_digest, Buffer.base_code, Buffer.base_txt, Buffer.base_key, Buffer.size_digest,
        Buffer.size_code, Buffer.size_txt, Buffer.size_key, ne_eq, not_true_eq_false] at h h' hne <;> omega
  have hn : ∀ b' : Buffer, b' ≠ b → b'.cellAt? p off = none := fun b' hne => Buffer.cellAt?_of_not (key b' hne)
  have hb := Buffer.cellAt?_of_in h
  cases b
  · rw [locate, hb]; rfl
  · rw [locate, hb, hn .digest (by decide)]; rfl
  · rw [locate, hb, hn .digest (by decide), hn .code (by decide)]; rfl
  · rw [locate, hb, hn .digest (by decide), hn .code (by decide), hn .txt (by decide)]; rfl

/-- R53, R54: what the window accepts. -/
theorem locate_eq_none_iff (p : Config.Params) (off : Nat) (size : Size) :
    locate p off size = none ↔ ¬Accepted p off size := by
  cases size with
  | four => simp [locate, Accepted, Reg.at?_eq_none_iff]
  | two => simp [locate, Accepted]
  | one =>
    have hc : ∀ b : Buffer, b.cellAt? p off = none ↔ ¬InBuffer p b off := fun b => by
      constructor
      · intro h h'; rw [Buffer.cellAt?_of_in h'] at h; cases h
      · exact Buffer.cellAt?_of_not
    simp only [locate, Option.or_eq_none_iff, hc]
    simp only [InBuffer, Buffer.base_digest, Buffer.base_code, Buffer.base_txt, Buffer.base_key, Buffer.size_digest,
      Buffer.size_code, Buffer.size_txt, Buffer.size_key, Accepted]
    simp only [reduceCtorEq, false_and, true_and, false_or]
    omega

theorem Buffer.cellAt?_inv {p : Config.Params} {b : Buffer} {off : Nat} {loc : Location}
    (h : b.cellAt? p off = some loc) : InBuffer p b off ∧ loc = .cell b (off - b.base) := by
  unfold Buffer.cellAt? at h
  split at h
  · injection h with h; exact ⟨‹_›, h.symm⟩
  · cases h

/-- A location is a register named by a 4-byte access or a cell named by a 1-byte access. -/
theorem locate_inv {p : Config.Params} {off : Nat} {size : Size} {loc : Location}
    (h : locate p off size = some loc) :
    (∃ r : Reg, size = .four ∧ off = r.offset ∧ loc = .reg r) ∨
      (∃ b : Buffer, size = .one ∧ InBuffer p b off ∧ loc = .cell b (off - b.base)) := by
  cases size with
  | four =>
    obtain ⟨r, hr, rfl⟩ := Option.map_eq_some_iff.1 h
    exact .inl ⟨r, rfl, (Reg.at?_eq_some_iff _ _).1 hr, rfl⟩
  | two => cases h
  | one =>
    right
    rcases Option.or_eq_some_iff.1 h with h | ⟨-, h⟩
    · exact ⟨_, rfl, Buffer.cellAt?_inv h⟩
    · rcases Option.or_eq_some_iff.1 h with h | ⟨-, h⟩
      · exact ⟨_, rfl, Buffer.cellAt?_inv h⟩
      · rcases Option.or_eq_some_iff.1 h with h | ⟨-, h⟩
        · exact ⟨_, rfl, Buffer.cellAt?_inv h⟩
        · exact ⟨_, rfl, Buffer.cellAt?_inv h⟩

/-- An accepted 4-byte access names a register, an accepted 1-byte access a cell. -/
theorem accepted_cases {p : Config.Params} {off : Nat} {size : Size} (h : Accepted p off size) :
    (∃ r : Reg, size = .four ∧ off = r.offset) ∨ (∃ b : Buffer, size = .one ∧ InBuffer p b off) := by
  rcases h with ⟨rfl, h1, h2⟩ | ⟨rfl, h⟩
  · left
    cases hr : Reg.at? off with
    | none => exact absurd ⟨h1, h2⟩ ((Reg.at?_eq_none_iff off).1 hr)
    | some r => exact ⟨r, rfl, (Reg.at?_eq_some_iff off r).1 hr⟩
  · right
    rcases h with h | h | h | h
    · exact ⟨.digest, rfl, h⟩
    · exact ⟨.code, rfl, h⟩
    · exact ⟨.txt, rfl, h⟩
    · exact ⟨.key, rfl, h⟩

/-! ### What a transaction does -/

/-- An accepted 4-byte write of an idle block: the register's own effect. -/
theorem transact_writeReg {s : State} (hb : s.status.busy = false) (r : Reg) (v : Word) :
    s.transact (.write (BitVec.ofNat 14 r.offset) (.word v)) =
      { s.idleWrite v (.reg r) with reply := some (.write .okay) } := by
  have h1 : (BitVec.ofNat 14 r.offset).toNat = r.offset := by cases r <;> rfl
  have h2 := locate_four s.params r
  simp [State.transact, State.busWrite, WriteData.size, h1, h2, hb, WriteData.value]

/-- An accepted 4-byte read of an idle block: the register's stored value. -/
theorem transact_readReg {s : State} (hb : s.status.busy = false) (r : Reg) :
    (s.transact (.read (BitVec.ofNat 14 r.offset) .four)).reply = some (.read .okay (s.idleValue (.reg r))) := by
  have h1 : (BitVec.ofNat 14 r.offset).toNat = r.offset := by cases r <;> rfl
  have h2 := locate_four s.params r
  simp [State.transact, State.busRead, h1, h2, State.readValue, hb]

/-- Everything a transaction can do: only answer; set `OVR` in the busy window; or one idle write. -/
theorem transact_cases (s : State) (x : Transaction) :
    (∃ r, s.transact x = { s with reply := r }) ∨
    (s.status.busy = true ∧
      ∃ r, s.transact x = { s with status := { s.status with ovr := true }, reply := r }) ∨
    (s.status.busy = false ∧ ∃ off data loc, x = .write off data ∧ locate s.params off.toNat data.size = some loc ∧
      loc.readOnly = false ∧ s.transact x = { s.idleWrite data.value loc with reply := some (.write .okay) }) := by
  cases x with
  | read off size => exact .inl ⟨_, rfl⟩
  | write off data =>
    cases hl : locate s.params off.toNat data.size with
    | none => left; simp [State.transact, State.busWrite, hl]
    | some loc =>
      cases hb : s.status.busy
      · cases hr : loc.readOnly
        · right; right
          exact ⟨rfl, off, data, loc, rfl, hl, hr, by simp [State.transact, State.busWrite, hl, hb]⟩
        · left; simp [State.transact, State.busWrite, hl, hb, State.idleWrite, hr]
      · right; left
        exact ⟨rfl, by simp [State.transact, State.busWrite, hl, hb, State.dropWrite]⟩

/-- An idle write leaves the parameters and the events to come. -/
theorem idleWrite_params (s : State) (v : Word) (loc : Location) : (s.idleWrite v loc).params = s.params := by
  simp only [State.idleWrite]
  split
  · rfl
  · rcases loc with r | ⟨b, i⟩
    · cases r <;> rfl
    · rfl

theorem idleWrite_schedule (s : State) (v : Word) (loc : Location) : (s.idleWrite v loc).schedule = s.schedule := by
  simp only [State.idleWrite]
  split
  · rfl
  · rcases loc with r | ⟨b, i⟩
    · cases r <;> rfl
    · rfl

theorem transact_params (s : State) (x : Transaction) : (s.transact x).params = s.params := by
  rcases transact_cases s x with ⟨r, h⟩ | ⟨-, r, h⟩ | ⟨-, off, data, loc, -, -, -, h⟩ <;> rw [h]
  exact idleWrite_params ..

theorem transact_schedule (s : State) (x : Transaction) : (s.transact x).schedule = s.schedule := by
  rcases transact_cases s x with ⟨r, h⟩ | ⟨-, r, h⟩ | ⟨-, off, data, loc, -, -, -, h⟩ <;> rw [h]
  exact idleWrite_schedule ..

/-- A transaction never ends a busy window. -/
theorem transact_busy {s : State} (hb : s.status.busy = true) (x : Transaction) :
    (s.transact x).status.busy = true := by
  rcases transact_cases s x with ⟨r, h⟩ | ⟨-, r, h⟩ | ⟨hb', off, data, loc, -, -, -, h⟩
  · rw [h]; exact hb
  · rw [h]; exact hb
  · rw [hb] at hb'; cases hb'

end Sys2Proof.Machine
end

