-- ==== Sys2Proof/Laws/Sha1.lean ====
section
/-! SUPPORT. Lengths in SHA-1 and HMAC. -/

namespace Sys2Proof.Machine

@[simp] theorem length_bytesOfWord (w : Word) : (bytesOfWord w).length = 4 := rfl

@[simp] theorem length_bytesOfCounter (v : BitVec 64) : (bytesOfCounter v).length = 8 := rfl

@[simp] theorem Chain.length_bytes (h : Chain) : h.bytes.length = 20 := rfl

theorem length_sha1 (m : List Byte) : (sha1 m).length = 20 := rfl

theorem length_hmacSha1 (k m : List Byte) : (hmacSha1 k m).length = 20 := length_sha1 _

theorem length_scheduleExtend (n : Nat) (ws : List Word) : (scheduleExtend n ws).length = ws.length + n := by
  induction n generalizing ws with
  | zero => rfl
  | succ n ih => rw [scheduleExtend, ih, List.length_cons]; omega

end Sys2Proof.Machine
end

