-- ==== Sys2Proof/Laws/Commands.lean ====
section
/-! SUPPORT. What the body of each command is, case by case: the one place where the bodies are unfolded. -/

namespace Sys2Proof.Machine

/-! ### Operands are read through the invalidation -/

theorem State.keyBytes_invalidateDigest (s : State) : s.invalidateDigest.keyBytes = s.keyBytes :=
  State.slice_congr fun i _ => by
    rw [State.cell, State.readByte_invalidateDigest, if_neg]
    · rfl
    · simp only [InBuffer, Buffer.base_key, Buffer.base_digest, Buffer.base_code, Buffer.size_digest, Buffer.size_code]
      omega

theorem State.digestBytes_invalidateTrunc (s : State) : s.invalidateTrunc.digestBytes = s.digestBytes :=
  State.slice_congr fun i hi => by
    rw [State.cell, State.readByte_invalidateTrunc, if_neg]
    · rfl
    · have : i < 20 := hi
      simp only [InBuffer, Buffer.base_digest, Buffer.base_code, Buffer.size_code]
      omega

theorem State.text_invalidateKey {s : State} (hl : s.params.Legal) (ht : s.txtlen.toNat ≤ s.params.textMax) :
    s.invalidateKey.text = s.text :=
  State.slice_congr fun i hi => by
    have hi' : i < s.txtlen.toNat := hi
    rw [State.cell, State.readByte_invalidateKey, if_neg]
    · rfl
    · have := hl.2
      simp only [InBuffer, Buffer.base_txt, Buffer.base_key, Buffer.base_digest, Buffer.base_code, Buffer.size_digest,
        Buffer.size_code]
      omega

/-! ### `B32DEC` -/

theorem b32decBody_tooLong {s : State} (h : s.params.textMax < s.txtlen.toNat) :
    b32decBody s = .raised s.invalidateKey (.plain .eLen) := by
  rw [b32decBody]; simp [h]

theorem b32decBody_badChar {s : State} {chr : Byte} {pos : Nat} (hl : s.params.Legal)
    (ht : s.txtlen.toNat ≤ s.params.textMax) (h : b32Decode s.text = .err chr pos) :
    b32decBody s = .raised s.invalidateKey ⟨.eB32char, chr, BitVec.ofNat 16 pos⟩ := by
  rw [b32decBody]; simp [Nat.not_lt.2 ht, State.text_invalidateKey hl ht, h]

theorem b32decBody_empty {s : State} (hl : s.params.Legal) (ht : s.txtlen.toNat ≤ s.params.textMax)
    (h : b32Decode s.text = .ok []) : b32decBody s = .raised s.invalidateKey (.plain .eB32empty) := by
  rw [b32decBody]; simp [Nat.not_lt.2 ht, State.text_invalidateKey hl ht, h]

theorem b32decBody_ok {s : State} {out : List Byte} (hl : s.params.Legal) (ht : s.txtlen.toNat ≤ s.params.textMax)
    (h : b32Decode s.text = .ok out) (hne : out ≠ []) :
    b32decBody s = .ended { s.invalidateKey.storeBuffer .key out with
      keylen := BitVec.ofNat 16 out.length, status := { s.invalidateKey.status with keyvalid := true } } := by
  obtain ⟨b, bs, rfl⟩ := List.exists_cons_of_ne_nil hne
  rw [b32decBody]; simp [Nat.not_lt.2 ht, State.text_invalidateKey hl ht, h]

/-! ### `HMAC` -/

theorem hmacBody_noKey {s : State} (h : s.status.keyvalid = false) :
    hmacBody s = .raised s.invalidateDigest (.plain .eNokey) := by
  rw [hmacBody]; simp [h]

theorem hmacBody_key {s : State} (h : s.status.keyvalid = true) :
    hmacBody s = .ended { s.invalidateDigest.storeBuffer .digest (hmacSha1 s.keyBytes (bytesOfCounter (s.ctrHi ++ s.ctrLo)))
      with status := { s.invalidateDigest.status with dvalid := true } } := by
  rw [hmacBody]; simp [h, State.keyBytes_invalidateDigest, State.message, State.counter]

/-! ### `TRUNC` -/

theorem truncBody_noDigest {s : State} (h : s.status.dvalid = false) :
    truncBody s = .raised s.invalidateTrunc (.plain .eSeq) := by
  rw [truncBody]; simp [h]

theorem truncBody_digest {s : State} (h : s.status.dvalid = true) :
    truncBody s = .ended { s.invalidateTrunc with
      trunc := dynTrunc s.digestBytes, status := { s.invalidateTrunc.status with tvalid := true } } := by
  rw [truncBody]; simp [h, State.digestBytes_invalidateTrunc]

/-! ### `FMT` -/

theorem fmtBody_noTrunc {s : State} (h : s.status.tvalid = false) :
    fmtBody s = .raised s.invalidateCode (.plain .eSeq) := by
  rw [fmtBody]; simp [h]

theorem fmtBody_digits {s : State} (h : s.status.tvalid = true)
    (hd : s.cfg.digits.toNat = 0 ∨ 10 < s.cfg.digits.toNat) :
    fmtBody s = .raised s.invalidateCode (.plain .eDigits) := by
  rw [fmtBody]
  simp only [State.invalidateCode_status, State.invalidateCode_cfg, h, Bool.true_eq_false, if_false]
  exact if_pos hd

theorem fmtBody_ok {s : State} (h : s.status.tvalid = true) (h1 : 1 ≤ s.cfg.digits.toNat)
    (h2 : s.cfg.digits.toNat ≤ 10) :
    fmtBody s = .ended { s.invalidateCode.storeBuffer .code
        (renderDec (reduceCode s.trunc s.cfg.digits.toNat) s.cfg.digits.toNat) with
      codeval := BitVec.ofNat 31 (reduceCode s.trunc s.cfg.digits.toNat)
      codelen := BitVec.ofNat 4 s.cfg.digits.toNat
      status := { s.invalidateCode.status with cvalid := true } } := by
  rw [fmtBody]
  simp only [State.invalidateCode_status, State.invalidateCode_cfg, State.invalidateCode_trunc, h, Bool.true_eq_false,
    if_false]
  exact if_neg (by simp only [Config.codeMax]; omega)

@[simp] theorem length_renderDec (v n : Nat) : (renderDec v n).length = n := by simp [renderDec]

/-! ### `HOTP`: its stages, one after the other -/

theorem hotpBody_noKey {s : State} (h : s.status.keyvalid = false) :
    hotpBody s = .raised s.invalidateDigest (.plain .eNokey) := by
  rw [hotpBody, hmacBody_noKey h]; rfl

/-! ### Every command, at once -/

/-- The state a body ended or raised in. -/
def Body.state : Body → State
  | .ended s => s
  | .raised s _ => s

/-- A body leaves the control fields and `CFG`. -/
structure Body.Keeps (s : State) (b : Body) : Prop where
  control : SameControl s b.state
  cfg : b.state.cfg = s.cfg

theorem SameControl.trans {s t u : State} (h : SameControl s t) (h' : SameControl t u) : SameControl s u :=
  ⟨h'.1.trans h.1, h'.2.trans h.2, h'.3.trans h.3, h'.4.trans h.4, h'.5.trans h.5⟩

theorem Body.Keeps.andThen {s : State} {b : Body} {f : State → Body} (h : b.Keeps s) (hf : ∀ u, (f u).Keeps u) :
    (b.andThen f).Keeps s := by
  cases b with
  | ended u => exact ⟨h.1.trans (hf u).1, (hf u).2.trans h.2⟩
  | raised u r => exact h

theorem hmacBody_keeps (s : State) : (hmacBody s).Keeps s := by
  cases hk : s.status.keyvalid
  · rw [hmacBody_noKey hk]; exact ⟨⟨rfl, rfl, rfl, rfl, rfl⟩, rfl⟩
  · rw [hmacBody_key hk]; exact ⟨⟨rfl, rfl, rfl, rfl, rfl⟩, rfl⟩

theorem truncBody_keeps (s : State) : (truncBody s).Keeps s := by
  cases hk : s.status.dvalid
  · rw [truncBody_noDigest hk]; exact ⟨⟨rfl, rfl, rfl, rfl, rfl⟩, rfl⟩
  · rw [truncBody_digest hk]; exact ⟨⟨rfl, rfl, rfl, rfl, rfl⟩, rfl⟩

theorem fmtBody_keeps (s : State) : (fmtBody s).Keeps s := by
  cases hk : s.status.tvalid
  · rw [fmtBody_noTrunc hk]; exact ⟨⟨rfl, rfl, rfl, rfl, rfl⟩, rfl⟩
  · by_cases hd : s.cfg.digits.toNat = 0 ∨ 10 < s.cfg.digits.toNat
    · rw [fmtBody_digits hk hd]; exact ⟨⟨rfl, rfl, rfl, rfl, rfl⟩, rfl⟩
    · rw [fmtBody_ok hk (by omega) (by omega)]; exact ⟨⟨rfl, rfl, rfl, rfl, rfl⟩, rfl⟩

theorem b32decBody_keeps (s : State) : (b32decBody s).Keeps s := by
  simp only [b32decBody]
  split
  · exact ⟨⟨rfl, rfl, rfl, rfl, rfl⟩, rfl⟩
  · split <;> exact ⟨⟨rfl, rfl, rfl, rfl, rfl⟩, rfl⟩

/-- Every command's answer is the completion of a body that keeps the control fields and `CFG`. -/
theorem exec_inv {i : Instr} {s t : State} (h : exec i s = .next t) : ∃ b : Body, b.Keeps s ∧ t = b.finish := by
  rw [exec_eq] at h
  injection h with h
  subst h
  cases i
  · exact ⟨_, b32decBody_keeps s, rfl⟩
  · exact ⟨_, hmacBody_keeps s, rfl⟩
  · exact ⟨_, truncBody_keeps s, rfl⟩
  · exact ⟨_, fmtBody_keeps s, rfl⟩
  · exact ⟨_, ((hmacBody_keeps s).andThen truncBody_keeps).andThen fmtBody_keeps, rfl⟩
  · exact ⟨clrBody s, ⟨⟨rfl, rfl, rfl, rfl, rfl⟩, rfl⟩, rfl⟩

theorem exec_control {i : Instr} {s t : State} (h : exec i s = .next t) : SameControl s t ∧ t.cfg = s.cfg := by
  obtain ⟨b, hk, rfl⟩ := exec_inv h
  cases b <;> exact ⟨⟨hk.1.1, hk.1.2, hk.1.3, hk.1.4, hk.1.5⟩, hk.2⟩

/-- A command is over: `BUSY` = 0 and `DONE` or `ERR` set. -/
theorem exec_over {i : Instr} {s t : State} (h : exec i s = .next t) :
    t.status.busy = false ∧ (t.status.done || t.status.err) = true := by
  obtain ⟨b, -, rfl⟩ := exec_inv h
  cases b <;> simp [Body.finish]

end Sys2Proof.Machine
end

