-- ==== Sys2Proof/Laws/Decode.lean ====
section
/-! SUPPORT. What the decoder answers, in terms of the word's value. -/

namespace Sys2Proof

theorem rsvField_eq_zero_iff (w : Word) : rsvField w = 0 ↔ w.toNat < 256 := by
  simp only [rsvField, ← BitVec.toNat_inj, BitVec.extractLsb'_toNat]
  have := w.isLt
  simp [Nat.shiftRight_eq_div_pow]
  omega

theorem opField_toNat (w : Word) : (opField w).toNat = w.toNat % 256 := by simp [opField]

theorem encode_toNat (i : Instr) : (encode i).toNat = (opcode i).toNat := by cases i <;> rfl

theorem opcode_of_decodeOp {op : BitVec 8} {i : Instr} (h : decodeOp op = some i) : op = opcode i := by
  unfold decodeOp at h
  repeat' split at h
  all_goals first
    | (injection h with h; subst h; assumption)
    | cases h

/-- Every word the decoder reads as a command is that command's encoding. -/
theorem encode_of_decode {w : Word} {i : Instr} (h : decode w = .command i) : w = encode i := by
  unfold decode at h
  split at h
  · cases h
  · rename_i hr
    have hlt : w.toNat < 256 := (rsvField_eq_zero_iff w).1 (not_not.1 hr)
    split at h
    · rename_i j hj
      injection h with h
      subst h
      apply BitVec.eq_of_toNat_eq
      rw [encode_toNat, ← opcode_of_decodeOp hj, opField_toNat]
      omega
    · cases h

theorem decode_encode (i : Instr) : decode (encode i) = .command i := by cases i <;> rfl

/-- A word that encodes no command is illegal. -/
theorem decode_of_ne {w : Word} (h : ∀ i, w ≠ encode i) : ∃ r, decode w = .illegal r := by
  cases hd : decode w with
  | command i => exact absurd (encode_of_decode hd) (h i)
  | illegal r => exact ⟨r, rfl⟩

end Sys2Proof
end

