-- ==== Sys2Proof/Laws/PerInstr.lean ====
section
/-! SUPPORT. Statements made per instruction: the family `Encoding`. -/

namespace Sys2Proof.Laws.Encoding

/-- The command is well formed, its word is a legal command word, and the decoder reads the command back from it. -/
def Statement (i : Instr) : Prop :=
  i.wf = true ∧ wordWf (encode i) = true ∧ decode (encode i) = .command i

theorem b32dec : Statement .b32dec := by unfold Statement; decide

theorem hmac : Statement .hmac := by unfold Statement; decide

theorem trunc : Statement .trunc := by unfold Statement; decide

theorem fmt : Statement .fmt := by unfold Statement; decide

theorem hotp : Statement .hotp := by unfold Statement; decide

theorem clr : Statement .clr := by unfold Statement; decide

end Sys2Proof.Laws.Encoding
end

