-- ==== Sys2Proof/Laws/Step.lean ====
section
/-! SUPPORT. Everything one step of the machine can do, said once. -/

namespace Sys2Proof.Machine

theorem nextEvent_of_coreNext {s : State} {es : List Event} (h : CoreNext s es) : nextEvent s.schedule = (.core, es) := by
  rcases h with h | ⟨h, rfl⟩ <;> simp [h, nextEvent]

/-- What a step from `s` to `t` was: one event of one agent. -/
inductive StepCase (s t : State) : Prop where
  /-- A host transaction. -/
  | bus (es : List Event) (x : Transaction) (hs : s.schedule = .bus x :: es)
      (ht : t = ({ s with schedule := es } : State).transact x)
  /-- A hard reset. -/
  | reset (es : List Event) (hs : s.schedule = .hardReset :: es)
      (ht : t = ({ s with schedule := es } : State).hardReset)
  /-- The core's turn on an idle block. -/
  | idle (es : List Event) (hs : CoreNext s es) (hb : s.status.busy = false) (ht : t = { s with schedule := es })
  /-- The completion of a command. -/
  | complete (es : List Event) (i : Instr) (hs : CoreNext s es) (hb : s.status.busy = true)
      (hd : decode s.cmdlatch = .command i) (ht : exec i { s with schedule := es } = .next t)
  /-- The completion of an illegal word. -/
  | illegal (es : List Event) (r : IllegalWord) (hs : CoreNext s es) (hb : s.status.busy = true)
      (hd : decode s.cmdlatch = .illegal r) (ht : t = ({ s with schedule := es } : State).illegalWord)

theorem coreTurn_inv {s t : State} {es : List Event} (hc : CoreNext s es)
    (h : coreTurn { s with schedule := es } = .next t) : StepCase s t := by
  unfold coreTurn at h
  split at h
  · rename_i hb
    unfold coreComplete at h
    split at h
    · rename_i i hd
      exact .complete es i hc hb hd h
    · rename_i r hd
      injection h with h
      exact .illegal es r hc hb hd h.symm
  · rename_i hb
    injection h with h
    exact .idle es hc (by simpa using hb) h.symm

/-- The inversion of a step. -/
theorem step_inv {s t : State} (h : step s = .next t) : StepCase s t := by
  unfold step stepOnce at h
  cases hs : s.schedule with
  | nil => rw [hs] at h; exact coreTurn_inv (.inr ⟨hs, rfl⟩) h
  | cons e es =>
    rw [hs] at h
    cases e with
    | bus x => injection h with h; exact .bus es x hs h.symm
    | core => exact coreTurn_inv (.inl hs) h
    | hardReset => injection h with h; exact .reset es hs h.symm

/-- Every event is answered by a next state. -/
theorem perform_next (s : State) (e : Event) : ∃ t, perform s e = .next t := by
  cases e with
  | bus x => exact ⟨_, rfl⟩
  | hardReset => exact ⟨_, rfl⟩
  | core =>
    simp only [perform, coreTurn, coreComplete]
    split
    · split
      · exact ⟨_, exec_eq ..⟩
      · exact ⟨_, rfl⟩
    · exact ⟨_, rfl⟩

theorem step_next (s : State) : ∃ t, step s = .next t := perform_next _ _

theorem runSteps_succ {s t : State} (h : step s = .next t) (k : Nat) : runSteps (k + 1) s = runSteps k t := by
  simp [runSteps, Host.Core.run, Sys2Proof.core, h]

@[simp] theorem runSteps_zero (s : State) : runSteps 0 s = .next s := rfl

theorem step_bus {s : State} {x : Transaction} {es : List Event} (h : s.schedule = .bus x :: es) :
    step s = .next (State.transact { s with schedule := es } x) := by
  simp [step, stepOnce, h, nextEvent, perform]

theorem step_hardReset {s : State} {es : List Event} (h : s.schedule = .hardReset :: es) :
    step s = .next (State.hardReset { s with schedule := es }) := by
  simp [step, stepOnce, h, nextEvent, perform]

theorem step_core {s : State} {es : List Event} (h : CoreNext s es) :
    step s = coreTurn { s with schedule := es } := by
  simp [step, stepOnce, nextEvent_of_coreNext h, perform]

end Sys2Proof.Machine
end

