-- ==== Sys2Proof/Tests/Slice0.lean ====
section
/-! SUPPORT. Tests: expected values from 95_test_vectors.md and the rules' own examples. Then, for each statement with
hypotheses, concrete states and operands that meet all of them together. -/

namespace Sys2Proof.Tests

open Sys2Proof Sys2Proof.Machine

/-! ### Small states -/

/-- The reset state with a text in `TXT`. -/
def withText (t : List Byte) : State :=
  { State.reset with mem := Memory.store [] 0x1000 t, txtlen := BitVec.ofNat 16 t.length }

/-- The 20 bytes of "12345678901234567890" (K20). -/
def k20 : List Byte := [0x31, 0x32, 0x33, 0x34, 0x35, 0x36, 0x37, 0x38, 0x39, 0x30,
  0x31, 0x32, 0x33, 0x34, 0x35, 0x36, 0x37, 0x38, 0x39, 0x30]

/-- K20 loaded, counter 1. -/
def keyed : State :=
  { State.reset with mem := Memory.store [] 0x2000 k20, keylen := 20, ctrLo := 1,
                     status := { State.reset.status with keyvalid := true } }

/-- The digest of K20 and counter 1 (4.1). -/
def digest1 : List Byte := [0x75, 0xA4, 0x8A, 0x19, 0xD4, 0xCB, 0xE1, 0x00, 0x64, 0x4E, 0x8A, 0xC1, 0x39, 0x7E, 0xEA,
  0x74, 0x7A, 0x2D, 0x33, 0xAB]

/-- A digest loaded and valid. -/
def digested (d : List Byte) : State :=
  { keyed with mem := Memory.store keyed.mem 0x40 d, status := { keyed.status with dvalid := true } }

/-- A truncated value and a digit count, both valid or not. -/
def truncated (p : BitVec 31) (n : BitVec 4) : State :=
  { digested digest1 with trunc := p, cfg := ⟨n, false⟩, status := { (digested digest1).status with tvalid := true } }

/-- A state after the issue of a word. -/
def busy (s : State) (w : Word) : State := s.issue w

/-- The state a command leaves; the state itself where it leaves none. -/
def after (i : Instr) (s : State) : State :=
  match exec i s with
  | .next t => t
  | .fault _ => s
  | .refused _ => s

/-- The state a step leaves; the state itself where it leaves none. -/
def afterStep (s : State) : State :=
  match step s with
  | .next t => t
  | .fault _ => s
  | .refused _ => s

/-! ### Well-formedness: each check refuses -/

theorem test_params_below_range_refused : paramsWf ⟨7⟩ = false ∧ paramsWf ⟨8⟩ = true := by decide

theorem test_params_above_range_refused : paramsWf ⟨4097⟩ = false ∧ paramsWf ⟨4096⟩ = true := by decide

theorem test_word_reserved_bits_refused : wordReservedZero 0x105 = false ∧ wordWf 0x105 = false := by decide

theorem test_word_without_row_refused : wordOpHasRow 0x00 = false ∧ wordOpHasRow 0x07 = false ∧ wordWf 0xFF = false := by
  decide

theorem test_every_row_is_well_formed :
    wordWf 1 = true ∧ wordWf 2 = true ∧ wordWf 3 = true ∧ wordWf 4 = true ∧ wordWf 5 = true ∧ wordWf 6 = true := by decide

/-! ### Decoding: the words of rule R72, bit by bit -/

theorem test_decode_b32dec : decode 0b00000000000000000000000000000001#32 = .command .b32dec := by decide

theorem test_decode_hmac : decode 0b00000000000000000000000000000010#32 = .command .hmac := by decide

theorem test_decode_trunc : decode 0b00000000000000000000000000000011#32 = .command .trunc := by decide

theorem test_decode_fmt : decode 0b00000000000000000000000000000100#32 = .command .fmt := by decide

theorem test_decode_hotp : decode 0b00000000000000000000000000000101#32 = .command .hotp := by decide

theorem test_decode_clr : decode 0b00000000000000000000000000000110#32 = .command .clr := by decide

/-- 8.7 to 8.11. -/
theorem test_decode_illegal : decode 0x00000000 = .illegal .reservedOpcode ∧ decode 0x00000007 = .illegal .reservedOpcode ∧
    decode 0x000000FF = .illegal .reservedOpcode ∧ decode 0x00000105 = .illegal .reservedBits ∧
    decode 0x80000001 = .illegal .reservedBits := by decide

/-- The first step after reset runs the delivered word: 8.6 and 8.3. -/
theorem test_step_runs_fetched_word :
    (afterStep (State.reset.withFetchWord 32 6)).status.word = 0x00000002 ∧
    (afterStep (State.reset.withFetchWord 32 3)).status.word = 0x00000004 ∧
    (afterStep (State.reset.withFetchWord 32 3)).errinfo.word = 5 := by decide

/-! ### Commands -/

/-- 2.2.8, "MzXw6yTb". -/
theorem test_b32dec_mixed_case :
    let t := after .b32dec (busy (withText [0x4D, 0x7A, 0x58, 0x77, 0x36, 0x79, 0x54, 0x62]) 1)
    t.keyBytes = [0x66, 0x6F, 0x6F, 0x62, 0x61] ∧ t.status.word = 0x0000000A := by decide +kernel

/-- 2.3.3, "MZ=XW": an interior `=` is not stripped. -/
theorem test_b32dec_interior_pad :
    let t := after .b32dec (busy (withText [0x4D, 0x5A, 0x3D, 0x58, 0x57]) 1)
    t.errinfo.word = 0x00023D01 ∧ t.status.word = 0x00000004 := by decide +kernel

/-- 4.1, counter 1; 8.14: `TRUNC` and `CODE` are invalidated. -/
theorem test_hmac_k20_counter_1 :
    let t := after .hmac (busy (truncated 5 6) 2)
    t.digestBytes = digest1 ∧ t.status.word = 0x0000001A ∧ t.trunc = 0 := by decide +kernel

/-- 8.1. -/
theorem test_hmac_without_key :
    let t := after .hmac (busy State.reset 2)
    t.errinfo.word = 0x00000004 ∧ t.status.word = 0x00000004 := by decide

/-- 4.1, counter 1. -/
theorem test_trunc_counter_1 :
    let t := after .trunc (busy (digested digest1) 3)
    t.trunc = 0x41397EEA ∧ t.status.word = 0x0000003A := by decide +kernel

/-- 5.1: offset 15 takes bytes 15 to 18; the high nibble of `d[19]` is ignored. -/
theorem test_trunc_offset_15 :
    dynTrunc (List.replicate 15 0x00 ++ [0xFF, 0xFF, 0xFF, 0xFF, 0x0F]) = 0x7FFFFFFF ∧
    dynTrunc (List.replicate 15 0x00 ++ [0x01, 0x02, 0x03, 0x04, 0x1F]) = 0x01020304 := by decide

/-- 5.4, 6 digits; the cells beyond `CODELEN` are 0x00. -/
theorem test_fmt_six_digits :
    let t := after .fmt (busy (truncated 0x41397EEA 6) 4)
    t.codeval = 287082 ∧ t.slice .code 10 = [0x32, 0x38, 0x37, 0x30, 0x38, 0x32, 0, 0, 0, 0] := by decide +kernel

/-- 5.4, 11 digits: `E_DIGITS`, `TRUNC` kept. -/
theorem test_fmt_eleven_digits :
    let t := after .fmt (busy (truncated 0x41397EEA 11) 4)
    t.errinfo.word = 6 ∧ t.status.word = 0x0000003C ∧ t.trunc = 0x41397EEA := by decide +kernel

/-- 4.2, the counter of all ones: a leading zero in the code. -/
theorem test_hotp_all_ones :
    let t := after .hotp (busy { keyed with ctrHi := 0xFFFFFFFF, ctrLo := 0xFFFFFFFF } 5)
    t.slice .code 6 = [0x30, 0x39, 0x34, 0x34, 0x35, 0x31] ∧ t.status.word = 0x0000007A := by decide +kernel

/-- 8.17: `E_NOKEY` comes before `E_DIGITS`. -/
theorem test_hotp_without_key :
    let t := after .hotp (busy { State.reset with cfg := ⟨0, false⟩ } 5)
    t.errinfo.word = 0x00000004 ∧ t.status.word = 0x00000004 := by decide

/-- R163: the counter, the text and the key are gone, `CFG` stays. -/
theorem test_clr_drops_everything :
    let t := after .clr (busy { truncated 5 9 with txtlen := 3 } 6)
    t.mem = [] ∧ t.ctrLo = 0 ∧ t.txtlen = 0 ∧ t.cfg.digits = 9 ∧ t.status.word = 0x00000002 := by decide +kernel

/-- 3.3, SHA-1 of "abc". -/
theorem test_sha1_abc : sha1 [0x61, 0x62, 0x63] = [0xA9, 0x99, 0x3E, 0x36, 0x47, 0x06, 0x81, 0x6A, 0xBA, 0x3E, 0x25, 0x71,
    0x78, 0x50, 0xC2, 0x6C, 0x9C, 0xD0, 0xD8, 0x9D] := by decide +kernel

/-! ### The bus -/

/-- Section 9: `PARAM`; an unmapped cell; a register read with 1 byte. -/
theorem test_bus_reads :
    (State.reset.transact (.read 0x002C .four)).reply = some (.read .okay 0x00500080) ∧
    (State.reset.transact (.read 0x0054 .one)).reply = some (.read .error 0) ∧
    (State.reset.transact (.read 0x0004 .one)).reply = some (.read .error 0) := by decide

/-- R55 case 2, R56 cases 5 and 7: in the busy window a write is dropped and `KEYLEN` reads 0. -/
theorem test_bus_busy_window :
    let t := (busy keyed 2).transact (.write 0x0014 (.word 9))
    t.ctrLo = 1 ∧ (t.transact (.read 0x0004 .four)).reply = some (.read .okay 0x81) ∧
    (t.transact (.read 0x0018 .four)).reply = some (.read .okay 0) := by decide +kernel

/-- 5.4: a write of 0xF6 to `CFG` stores 6. -/
theorem test_cfg_reserved_bits : ((State.reset.transact (.write 0x0008 (.word 0xF6))).cfg) = ⟨6, false⟩ := by decide

/-! ### The host -/

/-- 1.3: exactly on a boundary the full step remains. -/
theorem test_seconds_remaining : Driver.secondsRemaining 30 0 = 30 ∧ Driver.secondsRemaining 30 1 = 29 ∧
    Driver.secondsRemaining 30 59 = 1 := by decide

/-- Section 6: floor division below the epoch. -/
theorem test_time_counter : Driver.timeCounter 30 (-31) = -2 ∧ Driver.timeCounter 30 61 = 2 := by decide

/-- How an operation failed. -/
def failure {α : Type} : Driver.Result α → Option Driver.Failure
  | .ok _ _ => none
  | .failed why _ => some why

/-- 1.1: "1189" fails with `InvalidEncoding` at its first character. -/
theorem test_construct_1189 :
    failure (Driver.construct 1 State.reset [0x31, 0x31, 0x38, 0x39]) = some (.invalidEncoding 0 0x31) := by
  decide +kernel

/-- R176 and R177: a step of 0, and a text with no cells for it, are refused. -/
theorem test_construct_refuses :
    failure (Driver.construct 1 State.reset [0x4D, 0x59] 0) = some .badConfig ∧
    failure (Driver.construct 1 State.reset (List.replicate 129 0x41)) = some .textTooLong ∧
    failure (Driver.generateCode 1 keyed ⟨0⟩ 59) = some .badConfig := by decide +kernel

/-- R176, R177: the defaults are a step of 30 and 6 digits. -/
theorem test_construct_defaults :
    (match Driver.construct 1 State.reset [0x4D, 0x59] with
      | .ok e t => decide (e.stepSeconds = 30 ∧ t.cfg.digits = 6 ∧ t.status.keyvalid = true)
      | .failed _ _ => false) = true := by decide +kernel

/-- Section 7: the code of K20 at instant 59 is valid at once (delta -1 at instant 60's counter 2 is counter 1). -/
theorem test_validate_code :
    (match Driver.validateCode 0 keyed ⟨30⟩ [0x32, 0x38, 0x37, 0x30, 0x38, 0x32] 60 with
      | .ok b t => decide (b = true ∧ t.ctrLo = 1)
      | .failed _ _ => false) = true := by decide +kernel

/-! ### Witnesses: each statement's hypotheses, met together, clause by clause -/

theorem witness_OpcodeMapDecodesEveryWord :
    256 ≤ (0x00000100 : Word).toNat ∧ 256 ≤ (0xFFFFFFFF : Word).toNat ∧ (1 : Word).toNat = 1 ∧ (2 : Word).toNat = 2 ∧
    (3 : Word).toNat = 3 ∧ (4 : Word).toNat = 4 ∧ (5 : Word).toNat = 5 ∧ (6 : Word).toNat = 6 ∧ (0 : Word).toNat = 0 ∧
    (7 ≤ (7 : Word).toNat ∧ (7 : Word).toNat < 256) ∧ 7 ≤ (255 : Word).toNat ∧ (255 : Word).toNat < 256 := by decide

theorem witness_EncodedCommandDecodesBack : Instr.wf .b32dec = true := rfl

theorem witness_ResetStateHasTheListedValues : Instr.hmac ≠ .b32dec ∧ Instr.hmac ≠ .clr := by decide

theorem witness_HardReset_scheduled :
    ({ busy keyed 2 with schedule := [.hardReset, .core] } : State).schedule = .hardReset :: [.core] := rfl

theorem witness_HardReset_window_ends :
    (busy keyed 3).status.busy = true ∧ ∃ t, step (busy keyed 3) = .next t ∧ t.status.busy = false :=
  ⟨rfl, _, rfl, rfl⟩

theorem witness_StepRuns_command : CoreNext (busy keyed 2) [] ∧ (busy keyed 2).status.busy = true ∧
    decode (busy keyed 2).cmdlatch = .command .hmac := ⟨.inr ⟨rfl, rfl⟩, rfl, by decide⟩

theorem witness_StepRuns_idle : CoreNext { keyed with schedule := [.core] } [] ∧
    ({ keyed with schedule := [.core] } : State).status.busy = false := ⟨.inl rfl, rfl⟩

theorem witness_StepRuns_bus :
    ({ keyed with schedule := [.bus (.read 0x0004 .four)] } : State).schedule = .bus (.read 0x0004 .four) :: [] ∧
    ({ keyed with schedule := [.hardReset] } : State).schedule = .hardReset :: [] := ⟨rfl, rfl⟩

theorem witness_PresentedCommandRunsNext : decodeTableWord 32 5 = some .hotp := by decide

theorem witness_IllegalWordCompletesWithECmd : CoreNext (busy keyed 0x105) [] ∧
    (busy keyed 0x105).status.busy = true ∧ ∀ i, (busy keyed 0x105).cmdlatch ≠ encode i :=
  ⟨.inr ⟨rfl, rfl⟩, rfl, fun i => by cases i <;> decide⟩

theorem witness_IssuedCommandIsEventuallyOver :
    ({ busy keyed 5 with schedule := [.bus (.read 0x0004 .four), .core] } : State).status.busy = true := rfl

theorem witness_CommandIssueLatchesTheWord : keyed.status.busy = false ∧ ∀ i, (7 : Word) ≠ encode i :=
  ⟨rfl, fun i => by cases i <;> decide⟩

/-- A read of each refused kind, at the edges of the holes. -/
theorem witness_RefusedTransaction_reads :
    ¬Accepted keyed.params 0x0030 .four ∧ ¬Accepted keyed.params 0x0002 .four ∧ ¬Accepted keyed.params 0x0004 .one ∧
    ¬Accepted keyed.params 0x0054 .one ∧ ¬Accepted keyed.params 0x006A .one ∧ ¬Accepted keyed.params 0x1080 .one ∧
    ¬Accepted keyed.params 0x2050 .one ∧ ¬Accepted keyed.params 0x3FFF .one ∧ ¬Accepted keyed.params 0x0040 .four ∧
    ¬Accepted keyed.params 0x0000 .two := by
  repeat' apply And.intro
  all_goals decide

theorem witness_RefusedTransaction_writes :
    ¬Accepted keyed.params (0x2000 : BitVec 14).toNat (WriteData.size (.word 1)) ∧
    ¬Accepted keyed.params (0x0000 : BitVec 14).toNat (WriteData.size (.half 1)) := by decide

theorem witness_WriteProcessing_busy : keyed.params.Legal ∧ (busy keyed 2).status.busy = true ∧
    Accepted keyed.params (0x0000 : BitVec 14).toNat (WriteData.size (.word 1)) ∧
    Accepted keyed.params (0x204F : BitVec 14).toNat (WriteData.size (.byte 1)) := by decide

/-- The read-only locations at the edges of their ranges. -/
theorem witness_WriteProcessing_readOnly : keyed.status.busy = false ∧
    Accepted keyed.params 0x18 .four ∧ Accepted keyed.params 0x2C .four ∧ Accepted keyed.params 0x40 .one ∧
    Accepted keyed.params 0x53 .one ∧ Accepted keyed.params 0x60 .one ∧ Accepted keyed.params 0x69 .one ∧
    Accepted keyed.params 0x2000 .one ∧ Accepted keyed.params 0x204F .one := by
  repeat' apply And.intro
  all_goals decide

theorem witness_WriteProcessing_text : keyed.status.busy = false ∧ 0 < keyed.params.textMax ∧
    127 < keyed.params.textMax := by decide

theorem witness_TextCellWriteStoresOneByte : keyed.params.Legal ∧ keyed.status.busy = false ∧
    127 < keyed.params.textMax ∧
    ∃ t, t = keyed.transact (.write (BitVec.ofNat 14 (0x1000 + 127)) (.byte 0x41)) := ⟨by decide, rfl, by decide, _, rfl⟩

theorem witness_ReadProcessing_refused : keyed.params.Legal ∧ ¬Accepted keyed.params (0x1080 : BitVec 14).toNat .one := by
  decide

theorem witness_ReadProcessing_registers : Accepted keyed.params (0x00 : BitVec 14).toNat .four ∧
    Accepted keyed.params (0x04 : BitVec 14).toNat .four ∧ Accepted keyed.params (0x08 : BitVec 14).toNat .four ∧
    Accepted keyed.params (0x0C : BitVec 14).toNat .four ∧ Accepted keyed.params (0x10 : BitVec 14).toNat .four ∧
    Accepted keyed.params (0x14 : BitVec 14).toNat .four ∧ Accepted keyed.params (0x18 : BitVec 14).toNat .four ∧
    Accepted keyed.params (0x1C : BitVec 14).toNat .four ∧ Accepted keyed.params (0x20 : BitVec 14).toNat .four ∧
    Accepted keyed.params (0x24 : BitVec 14).toNat .four ∧ Accepted keyed.params (0x28 : BitVec 14).toNat .four ∧
    Accepted keyed.params (0x2C : BitVec 14).toNat .four := by
  repeat' apply And.intro
  all_goals decide

theorem witness_ReadProcessing_cells : keyed.status.busy = false ∧ (busy keyed 2).status.busy = true ∧
    Accepted keyed.params (0x1000 : BitVec 14).toNat .one ∧ Accepted keyed.params (0x107F : BitVec 14).toNat .one ∧
    Accepted keyed.params (0x0040 : BitVec 14).toNat .one ∧ Accepted keyed.params (0x0069 : BitVec 14).toNat .one ∧
    Accepted keyed.params (0x204F : BitVec 14).toNat .one := by
  repeat' apply And.intro
  all_goals decide

theorem witness_ReservedRegisterBitsAreDiscarded : keyed.status.busy = false ∧
    ((0x0028 : BitVec 14), (0xFFFFFFF0 : Word)) ∈ [((0x0004 : BitVec 14), (0xFFFFFF00 : Word)), (0x0008, 0xFFFFFEF0),
      (0x000C, 0xFFFF0000), (0x0018, 0xFFFF0000), (0x001C, 0x000000F0), (0x0020, 0x80000000), (0x0024, 0x80000000),
      (0x0028, 0xFFFFFFF0)] := by decide

theorem witness_ParamIsConstant : keyed.params.Legal ∧ keyed.params = Config.defaultParams ∧
    ∃ t, step keyed = .next t := ⟨by decide, rfl, _, rfl⟩

/-- A state with a report pending and the interrupt enabled. -/
def reported : State :=
  { State.reset with cfg := ⟨6, true⟩, status := { State.reset.status with err := true, ovr := true }, errinfo := ⟨7, 0, 0⟩ }

theorem witness_InterruptLineIsLowered : reported.irq = true ∧ reported.status.busy = false ∧
    (reported.status.done = true → (0x4 : Word).getLsbD 1 = true) ∧
    (reported.status.err = true → (0x4 : Word).getLsbD 2 = true) ∧ (6 : Word).getLsbD 8 = false := by decide

theorem witness_CompletionRaisesTheInterruptLine : CoreNext (busy reported 3) [] ∧
    (busy reported 3).status.busy = true ∧ ∃ t, step (busy reported 3) = .next t ∧ t.irq = true :=
  ⟨.inr ⟨rfl, rfl⟩, rfl, _, rfl, rfl⟩

theorem witness_FaultReportIsClearedInTwoWays : reported.status.busy = false ∧ (0x4 : Word).getLsbD 2 = true ∧
    reported.status.done = false := by decide

theorem witness_OverrunIsSticky :
    (∃ t, step { reported with schedule := [.bus (.write 0x0004 (.word 0x80))] } = .next t ∧
      reported.status.ovr = true ∧ t.status.ovr = false) ∧
    ∃ t, step { reported with schedule := [.hardReset] } = .next t ∧ t.status.ovr = false :=
  ⟨⟨_, rfl, rfl, rfl⟩, _, rfl, rfl⟩

theorem witness_BusyWindowTraffic :
    let ts : List Transaction := [.write 0x0014 (.word 9), .read 0x0004 .four]
    let s : State := { busy keyed 5 with schedule := ts.map .bus ++ [.core] }
    s.status.busy = true ∧ decode s.cmdlatch = .command .hotp ∧ s.schedule = ts.map .bus ++ [.core] :=
  ⟨rfl, by decide, rfl⟩

theorem witness_CellClasses :
    (0x41 ≤ (0x41 : Byte).toNat ∧ (0x41 : Byte).toNat ≤ 0x5A) ∧ (0x41 ≤ (0x5A : Byte).toNat ∧ (0x5A : Byte).toNat ≤ 0x5A) ∧
    (0x61 ≤ (0x61 : Byte).toNat ∧ (0x61 : Byte).toNat ≤ 0x7A) ∧ (0x61 ≤ (0x7A : Byte).toNat ∧ (0x7A : Byte).toNat ≤ 0x7A) ∧
    (0x32 ≤ (0x32 : Byte).toNat ∧ (0x32 : Byte).toNat ≤ 0x37) ∧ (0x32 ≤ (0x37 : Byte).toNat ∧ (0x37 : Byte).toNat ≤ 0x37) ∧
    ¬(0x41 ≤ (0x40 : Byte).toNat ∧ (0x40 : Byte).toNat ≤ 0x5A) ∧ ¬(0x61 ≤ (0x40 : Byte).toNat ∧ (0x40 : Byte).toNat ≤ 0x7A) ∧
    ¬(0x32 ≤ (0x40 : Byte).toNat ∧ (0x40 : Byte).toNat ≤ 0x37) := by decide

theorem witness_DecodedLengthIsFiveEighths : b32Decode [0x4D, 0x59, 0x3D] = .ok [0x66] ∧
    ∀ c ∈ stripPad [0x4D, 0x59, 0x3D], b32Class c ≠ none := by decide

theorem witness_B32dec_decodes : (withText [0x4D, 0x59]).params.Legal ∧
    (withText [0x4D, 0x59]).txtlen.toNat ≤ (withText [0x4D, 0x59]).params.textMax ∧
    b32Decode (withText [0x4D, 0x59]).text = .ok [0x66] ∧ ([0x66] : List Byte) ≠ [] := by decide

theorem witness_B32dec_tooLong : (128 : Nat) < ({ withText [] with txtlen := 129 } : State).txtlen.toNat ∧
    ({ withText [] with txtlen := 129 } : State).params.textMax = 128 := by decide

theorem witness_B32dec_faults : (withText [0x4D, 0x30]).txtlen.toNat ≤ (withText [0x4D, 0x30]).params.textMax ∧
    b32Decode (withText [0x4D, 0x30]).text = .err 0x30 1 ∧ b32Decode (withText [0x3D]).text = .ok [] := by decide

theorem witness_FirstOffendingCharacterIsReported :
    let s := withText [0x4D, 0x30, 0x31]
    s.params.Legal ∧ s.txtlen.toNat ≤ s.params.textMax ∧ 1 < (stripPad s.text).length ∧
      b32Class (s.cell .txt 1) = none ∧ ∀ j, j < 1 → b32Class (s.cell .txt j) ≠ none := by decide

theorem witness_TextOfNoBytesIsRefused :
    (withText [0x3D]).params.Legal ∧ (stripPad (withText [0x3D]).text).length ≤ 1 ∧
    (stripPad (withText [0x4D, 0x3D]).text).length ≤ 1 ∧
    (∀ c ∈ stripPad (withText [0x4D, 0x3D]).text, b32Class c ≠ none) ∧ (stripPad (withText [0x31]).text).length ≤ 1 ∧
    ∃ c ∈ stripPad (withText [0x31]).text, b32Class c = none := by decide

theorem witness_PaddingFillsWholeBlocks : ([0x61, 0x62, 0x63] : List Byte).length < 4 ∧
    4 < (shaPad [0x61, 0x62, 0x63]).length - 8 ∧ 55 < (shaPad [0x61, 0x62, 0x63]).length - 8 := by decide

theorem witness_ScheduleFollowsTheRecurrence : (List.replicate 64 (0x61 : Byte)).length = 64 ∧ 0 < 16 ∧ 15 < 16 ∧
    16 ≤ 79 ∧ 79 < 80 := by decide

theorem witness_KeyBlockAndDigestSizes : (List.replicate 63 (1 : Byte)).length ≤ 64 ∧
    (List.replicate 63 (1 : Byte)).length ≤ 63 ∧ 63 < 64 ∧ 64 < (List.replicate 65 (1 : Byte)).length := by decide

theorem witness_HmacFollowsItsRule : keyed.status.keyvalid = true ∧ State.reset.status.keyvalid = false := ⟨rfl, rfl⟩

theorem witness_DigestDependsOnKeyAndCounterOnly :
    (∃ t, exec .hmac keyed = .next t) ∧ (∃ v, exec .hmac (truncated 5 9) = .next v) ∧
    keyed.status.keyvalid = (truncated 5 9).status.keyvalid ∧ keyed.keylen = (truncated 5 9).keylen ∧
    (∀ i, i < keyed.keylen.toNat → keyed.cell .key i = (truncated 5 9).cell .key i) ∧
    keyed.ctrHi = (truncated 5 9).ctrHi ∧ keyed.ctrLo = (truncated 5 9).ctrLo :=
  ⟨⟨_, rfl⟩, ⟨_, rfl⟩, rfl, rfl, by decide +kernel, rfl, rfl⟩

theorem witness_TruncationReadsFourBytesBigEndian : digest1.length = 20 := rfl

theorem witness_TruncFollowsItsRule : (digested digest1).status.dvalid = true ∧ keyed.status.dvalid = false := ⟨rfl, rfl⟩

theorem witness_RenderingIsExactlyNDigits : 9 < 10 ∧ (0x30 : Byte) ∈ renderDec 42 6 := by decide

theorem witness_RenderingReadsBackAndNests : 999999 < 10 ^ 6 ∧ 6 < 10 := by decide

theorem witness_Fmt_renders : (truncated 5 1).status.tvalid = true ∧ 1 ≤ (truncated 5 1).cfg.digits.toNat ∧
    (truncated 5 10).cfg.digits.toNat ≤ 10 := by decide

theorem witness_Fmt_faults : keyed.status.tvalid = false ∧ (truncated 5 0).cfg.digits.toNat = 0 ∧
    10 < (truncated 5 11).cfg.digits.toNat ∧ 10 < (truncated 5 15).cfg.digits.toNat := by decide

theorem witness_HotpFollowsItsRule : keyed.status.keyvalid = true ∧ 1 ≤ keyed.cfg.digits.toNat ∧
    keyed.cfg.digits.toNat ≤ 10 ∧ (truncated 5 11).status.keyvalid = true ∧ 10 < (truncated 5 11).cfg.digits.toNat ∧
    (truncated 5 0).cfg.digits.toNat = 0 ∧ State.reset.status.keyvalid = false := by decide

theorem witness_HotpEqualsTheThreeStages : (busy keyed 5).status.done = false ∧ (busy keyed 5).status.err = false ∧
    (busy keyed 5).errinfo = ⟨0, 0, 0⟩ ∧ (busy keyed 5).status.keyvalid = true ∧
    1 ≤ (busy keyed 5).cfg.digits.toNat ∧ (busy keyed 5).cfg.digits.toNat ≤ 10 ∧
    10 < (busy (truncated 5 11) 5).cfg.digits.toNat ∧ (busy State.reset 5).status.keyvalid = false := by decide

theorem witness_ClrReturnsToTheResetState : keyed.params.Legal ∧ OnlyBufferCells keyed :=
  ⟨by decide, fun c hc => ⟨.key, by
    have : ∀ c ∈ keyed.mem, InBuffer keyed.params .key c.1 := by decide +kernel
    exact this c hc⟩⟩

theorem witness_CommandsChangeOnlyWhatTheyOwn : keyed.params.Legal ∧ (∃ t, exec .hmac keyed = .next t) ∧
    Instr.hmac ≠ .clr ∧ Instr.hmac ≠ .b32dec ∧ 127 < keyed.params.textMax ∧ 79 < keyed.params.keyMax :=
  ⟨by decide, ⟨_, rfl⟩, by decide, by decide, by decide, by decide⟩

theorem witness_OnlyDecodeClearAndResetChangeTheKey : keyed.params.Legal ∧
    ∃ t, step (busy keyed 6) = .next t ∧ t.status.keyvalid ≠ (busy keyed 6).status.keyvalid :=
  ⟨by decide, _, rfl, by decide⟩

theorem witness_HostTransactionsKeepResults : (truncated 5 6).params.Legal ∧
    ∃ t, t = (truncated 5 6).transact (.write 0x1000 (.byte 0x41)) := ⟨by decide, _, rfl⟩

/-- A busy state of the invariant, whose next step completes `CLR`. -/
theorem witness_EveryStepKeepsTheResultChain :
    (busy State.reset 6).Inv ∧ ∃ t, step (busy State.reset 6) = .next t ∧ t.status.done = true := by
  refine ⟨?_, _, rfl, rfl⟩
  constructor
  case legal => decide
  case memWf => exact Memory.wf_nil
  case cells => intro c hc; cases hc
  case keyZero => exact fun _ => ⟨rfl, rfl, fun _ _ => rfl⟩
  case digestZero => exact fun _ => ⟨rfl, fun _ _ => rfl⟩
  case truncZero => exact fun _ => ⟨rfl, rfl⟩
  case codeZero => exact fun _ => ⟨rfl, rfl, rfl, fun _ _ => rfl⟩
  case busyClean => exact fun _ => ⟨rfl, rfl, rfl⟩
  case onlyCharPosition => exact fun _ => ⟨rfl, rfl⟩
  case oneOutcome => exact .inl rfl
  case codeRange => decide
  all_goals intro h; cases h

theorem witness_ResetMeetsTheResultChain : (⟨8⟩ : Config.Params).Legal ∧ (⟨4096⟩ : Config.Params).Legal := by decide

theorem witness_SecondsRemainingIsInRange : 0 < 1 ∧ Driver.secondsRemaining 1 (-7) = 1 := by decide

theorem witness_WindowCountersAreAdjacent : 0 < 30 ∧ Driver.timeCounter 30 (-1 + 1 * 30) = 0 := by decide

end Sys2Proof.Tests
end

section
/-! Family 00_scope: the issue of a command (R14) and the completion of an illegal word (R198). -/

namespace Sys2Proof.Machine

/-- R14, R55 case 4: a write to `CMD` of an idle block is the issue of the written word, answered `OKAY`. -/
theorem transact_writeCmd {s : State} (hb : s.status.busy = false) (v : Word) :
    s.transact (.write 0x0000 (.word v)) = { s.issue v with reply := some (.write .okay) } :=
  transact_writeReg hb .cmd v

/-- R198: the core's turn on a busy block whose latched word encodes no command is the `E_CMD` completion. -/
theorem step_illegalWord {s : State} {es : List Event} (hc : CoreNext s es) (hb : s.status.busy = true)
    (hw : ∀ i, s.cmdlatch ≠ encode i) : step s = .next (State.illegalWord { s with schedule := es }) := by
  obtain ⟨r, hr⟩ := decode_of_ne hw
  rw [step_core hc]
  simp only [coreTurn, coreComplete, hb, hr, if_true]

/-- Settles O11: the write is an issue, and the next core's turn completes the latched illegal word with `E_CMD`. -/
theorem commandIssueLatchesTheWord : Obligations.CommandIssueLatchesTheWord := by
  intro s v hb
  rw [transact_writeCmd hb v]
  constructor
  · rfl
  · intro hv
    exact ⟨_, step_illegalWord (.inl rfl) rfl hv, rfl, rfl, rfl⟩

end Sys2Proof.Machine
end

section
/-! Family 10_state: `PARAM` (R34) and the state after hard reset (R43). -/

namespace Sys2Proof.Machine

/-! ### What `PARAM` reads -/

/-- R34: the two halves of `PARAM` side by side, as one number: neither half overflows its 16 bits. -/
theorem paramWord_of_legal {p : Config.Params} (h : p.Legal) :
    paramWord p = BitVec.ofNat 32 (p.textMax * 5 / 8 * 65536 + p.textMax) := by
  have hText : p.textMax < 2 ^ 16 := by have := h.2; omega
  have hKey : p.keyMax < 2 ^ 16 := by have := keyMax_le h; omega
  apply BitVec.eq_of_toNat_eq
  rw [paramWord, BitVec.toNat_append, BitVec.toNat_ofNat, BitVec.toNat_ofNat, BitVec.toNat_ofNat,
    Nat.mod_eq_of_lt hText, Nat.mod_eq_of_lt hKey, ← Nat.shiftLeft_add_eq_or_of_lt hText, Nat.shiftLeft_eq]
  simp only [Config.Params.keyMax] at hKey ⊢
  omega

/-- R56 case 3: `PARAM` is neither gated nor replaced in the busy window. -/
theorem readValue_param (s : State) : s.readValue (.reg .param) = paramWord s.params := by
  simp [State.readValue, Location.gated, State.idleValue]

/-- R34, R56: a 4-byte read of `PARAM` is answered with its value, busy or idle. -/
theorem transact_readParam (s : State) :
    (s.transact (.read 0x002C .four)).reply = some (.read .okay (paramWord s.params)) := by
  have hloc : locate s.params (0x002C : BitVec 14).toNat .four = some (.reg .param) := locate_four s.params .param
  simp only [State.transact, State.busRead, hloc, readValue_param]

/-! ### No step changes the parameters -/

/-- R34: "Not affected by reset or by any command", nor by a bus transaction. -/
theorem step_params {s t : State} (h : step s = .next t) : t.params = s.params := by
  cases step_inv h with
  | bus es x _ ht => rw [ht, transact_params]
  | reset es _ ht => rw [ht]; rfl
  | idle es _ _ ht => rw [ht]
  | complete es i _ _ _ ht => exact (exec_control ht).1.params
  | illegal es r _ _ _ ht => rw [ht]; rfl

/-- Settles O18: legal parameters fit their fields, the read does not depend on `BUSY`, and each case of
a step keeps the parameters. -/
theorem paramIsConstant : Obligations.ParamIsConstant := by
  refine ⟨fun s hl => ?_, fun s hd => ?_, fun s t => step_params⟩
  · rw [transact_readParam, paramWord_of_legal hl]
  · rw [transact_readParam, hd]; rfl

/-! ### The commands on the reset state -/

/-- R43: nothing is valid after hard reset, so every command that consumes a result or the key faults. -/
theorem exec_reset_faults {i : Instr} (hdec : i ≠ .b32dec) (hclr : i ≠ .clr) :
    ∃ t, exec i State.reset = .next t ∧ t.status.err = true := by
  cases i with
  | b32dec => exact absurd rfl hdec
  | hmac => exact ⟨_, exec_hmac _, by rw [hmacBody_noKey rfl]; rfl⟩
  | trunc => exact ⟨_, exec_trunc _, by rw [truncBody_noDigest rfl]; rfl⟩
  | fmt => exact ⟨_, exec_fmt _, by rw [fmtBody_noTrunc rfl]; rfl⟩
  | hotp => exact ⟨_, exec_hotp _, by rw [hotpBody_noKey rfl]; rfl⟩
  | clr => exact absurd rfl hclr

/-- Settles O4: the register values are those written in `State.reset`, its memory lists no cell, and no valid flag is
set for a command to consume. -/
theorem resetStateHasTheListedValues : Obligations.ResetStateHasTheListedValues :=
  ⟨rfl, rfl, rfl, rfl, rfl, rfl, rfl, rfl, rfl, rfl, rfl, rfl, rfl, rfl, rfl, fun _ _ => rfl,
    fun _ => exec_reset_faults⟩

end Sys2Proof.Machine
end

section
/-! Family 20_memory: what a bus transaction answers and changes (R52 to R57). -/

namespace Sys2Proof.Machine

/-! ### The location an offset names -/

theorem Reg.toNat_offset (r : Reg) : (BitVec.ofNat 14 r.offset).toNat = r.offset := by cases r <;> rfl

/-- R51: the registers lie below the buffers. -/
theorem Reg.offset_lt (r : Reg) : r.offset < 0x40 := by cases r <;> decide

/-- R53, R54: an accepted transaction names a location. -/
theorem exists_locate_of_accepted {p : Config.Params} {off : Nat} {size : Size} (h : Accepted p off size) :
    ∃ loc, locate p off size = some loc :=
  Option.ne_none_iff_exists'.1 fun hn => (locate_eq_none_iff p off size).1 hn h

/-- R51: a register's offset names that register: the offsets differ, and no cell stands at one. -/
theorem location_of_regOffset {p : Config.Params} {off : Nat} {size : Size} {loc : Location}
    (hl : locate p off size = some loc) (r : Reg) (ho : off = r.offset) : loc = .reg r := by
  rcases locate_inv hl with ⟨r', -, ho', rfl⟩ | ⟨b, -, hin, -⟩
  · have hat := (Reg.at?_eq_some_iff off r).2 ho
    rw [(Reg.at?_eq_some_iff off r').2 ho'] at hat
    rw [Option.some.inj hat]
  · have hlow := r.offset_lt
    have hbase : 0x40 ≤ b.base := by cases b <;> decide
    have := hin.1
    omega

/-- R51: at 0x40 and above only buffer cells are named. -/
theorem location_of_cellOffset {p : Config.Params} {off : Nat} {size : Size} {loc : Location}
    (hl : locate p off size = some loc) (ho : 0x40 ≤ off) : ∃ b : Buffer, b.base ≤ off ∧ loc = .cell b (off - b.base) := by
  rcases locate_inv hl with ⟨r, -, hr, -⟩ | ⟨b, -, hin, hloc⟩
  · have hlow := r.offset_lt
    omega
  · exact ⟨b, hin.1, hloc⟩

/-- R56 case 7: the offsets of the key, the results and the fault report. -/
abbrev ResultOffset (off : Nat) : Prop :=
  off = 0x18 ∨ off = 0x1C ∨ off = 0x20 ∨ off = 0x24 ∨ off = 0x28 ∨ (0x40 ≤ off ∧ off < 0x6A) ∨ 0x2000 ≤ off

/-- R56 case 7: the gated locations by their offsets; a legal `TXT` ends below 0x2000. -/
theorem gated_iff_resultOffset {p : Config.Params} (hp : p.Legal) {off : Nat} {size : Size} {loc : Location}
    (hl : locate p off size = some loc) : loc.gated = true ↔ ResultOffset off := by
  rcases locate_inv hl with ⟨r, -, rfl, rfl⟩ | ⟨b, -, hin, rfl⟩
  · cases r <;> decide
  · have hmax := hp.2
    cases b <;> simp only [InBuffer, Buffer.base_digest, Buffer.base_code, Buffer.base_txt, Buffer.base_key,
      Buffer.size_digest, Buffer.size_code, Buffer.size_txt, Location.gated, ResultOffset, Bool.false_eq_true,
      true_iff, false_iff] at hin ⊢ <;> omega

/-- R55 case 3: what the busy window gates is read-only, and so is `PARAM`. -/
theorem readOnly_of_gated {loc : Location} (h : loc.gated = true) : loc.readOnly = true := by
  rcases loc with r | ⟨b, i⟩
  · revert h; cases r <;> decide
  · cases b with
    | txt => cases h
    | digest | code | key => rfl

/-! ### The cases of a transaction -/

/-- R56 case 1. -/
theorem transact_read_refused {s : State} {off : BitVec 14} {size : Size} (h : ¬Accepted s.params off.toNat size) :
    s.transact (.read off size) = { s with reply := some (.read .error 0) } := by
  rw [State.transact, State.busRead, (locate_eq_none_iff ..).2 h]

/-- R56: a read only answers. -/
theorem transact_read_located {s : State} {off : BitVec 14} {size : Size} {loc : Location}
    (hl : locate s.params off.toNat size = some loc) :
    s.transact (.read off size) = { s with reply := some (.read .okay (s.readValue loc)) } := by
  rw [State.transact, State.busRead, hl]

/-- R55 case 1. -/
theorem transact_write_refused {s : State} {off : BitVec 14} {data : WriteData}
    (h : ¬Accepted s.params off.toNat data.size) :
    s.transact (.write off data) = { s with reply := some (.write .error) } := by
  simp only [State.transact, State.busWrite, (locate_eq_none_iff ..).2 h]

/-- R55 case 2. -/
theorem transact_write_busy {s : State} {off : BitVec 14} {data : WriteData} {loc : Location}
    (hl : locate s.params off.toNat data.size = some loc) (hb : s.status.busy = true) :
    s.transact (.write off data) = { s.dropWrite with reply := some (.write .okay) } := by
  simp only [State.transact, State.busWrite, hl, hb, if_true]

/-- R55 cases 3 to 9. -/
theorem transact_write_idle {s : State} {off : BitVec 14} {data : WriteData} {loc : Location}
    (hl : locate s.params off.toNat data.size = some loc) (hb : s.status.busy = false) :
    s.transact (.write off data) = { s.idleWrite data.value loc with reply := some (.write .okay) } := by
  simp [State.transact, State.busWrite, hl, hb]

theorem idleWrite_readOnly (s : State) (v : Word) {loc : Location} (h : loc.readOnly = true) : s.idleWrite v loc = s :=
  if_pos h

/-- R55 case 9: a cell of `TXT` takes the byte. -/
theorem idleWrite_text (s : State) (i : Nat) (v : Byte) :
    s.idleWrite (WriteData.byte v).value (.cell .txt i) = s.setCell .txt i v := by
  have hv : (v.setWidth 32).extractLsb' 0 8 = v := by
    rw [← BitVec.setWidth_eq_extractLsb' (by decide), BitVec.setWidth_setWidth_of_le v (by decide), BitVec.setWidth_eq]
  exact congrArg (s.setCell .txt i) hv

theorem transact_writeText {s : State} (hp : s.params.Legal) (hb : s.status.busy = false) {i : Nat}
    (hi : i < s.params.textMax) (v : Byte) :
    s.transact (.write (BitVec.ofNat 14 (0x1000 + i)) (.byte v)) =
      { s.setCell .txt i v with reply := some (.write .okay) } := by
  have hmax := hp.2
  have hoff : (BitVec.ofNat 14 (0x1000 + i)).toNat = 0x1000 + i := by
    rw [BitVec.toNat_ofNat]; omega
  have hin : InBuffer s.params .txt (0x1000 + i) := ⟨by simp, by simpa using hi⟩
  have hl : locate s.params (BitVec.ofNat 14 (0x1000 + i)).toNat (WriteData.byte v).size = some (.cell .txt i) := by
    rw [hoff, WriteData.size, locate_one hp hin, Buffer.base_txt, Nat.add_sub_cancel_left]
  rw [transact_write_idle hl hb, idleWrite_text]

/-- Settles O12: a transaction the window does not accept names no location. -/
theorem refusedTransactionHasNoEffect : Obligations.RefusedTransactionHasNoEffect :=
  fun _ _ => ⟨fun _ => transact_read_refused, fun _ => transact_write_refused⟩

/-- Settles O13: the written offset names no location, a read-only one, or one with an effect of its own. -/
theorem writeProcessingFollowsTheNineCases : Obligations.WriteProcessingFollowsTheNineCases := by
  intro s off data hp
  refine ⟨transact_write_refused, fun ha hb => ?_, fun ha hb ho => ?_, fun hb => ?_⟩
  · obtain ⟨loc, hl⟩ := exists_locate_of_accepted ha
    exact transact_write_busy hl hb
  · obtain ⟨loc, hl⟩ := exists_locate_of_accepted ha
    have hro : loc.readOnly = true := by
      by_cases hparam : off.toNat = 0x2C
      · rw [location_of_regOffset hl .param hparam]; rfl
      · exact readOnly_of_gated ((gated_iff_resultOffset hp hl).2 (by unfold ResultOffset; omega))
    rw [transact_write_idle hl hb, idleWrite_readOnly s _ hro]
  · exact ⟨transact_writeReg hb .cmd, transact_writeReg hb .status, transact_writeReg hb .cfg,
      transact_writeReg hb .txtlen, transact_writeReg hb .ctrHi, transact_writeReg hb .ctrLo,
      fun i v hi => transact_writeText hp hb hi v⟩

/-! ### The value a read returns -/

theorem readValue_idle {s : State} (hb : s.status.busy = false) (loc : Location) : s.readValue loc = s.idleValue loc := by
  simp [State.readValue, hb]

/-- R56 cases 2 to 4 and 6: read as stored, busy or idle. -/
theorem readValue_ungated (s : State) {loc : Location} (hs : loc ≠ .reg .status) (hg : loc.gated = false) :
    s.readValue loc = s.idleValue loc := by
  simp [State.readValue, hs, hg]

/-- R56 case 5 in the busy window. -/
theorem readValue_status_busy {s : State} (hb : s.status.busy = true) :
    s.readValue (.reg .status) = s.status.busyWord :=
  if_pos ⟨hb, rfl⟩

/-- R56 case 7 in the busy window. -/
theorem readValue_gated_busy {s : State} (hb : s.status.busy = true) {loc : Location} (hg : loc.gated = true) :
    s.readValue loc = 0 := by
  have hs : loc ≠ .reg .status := by rintro rfl; cases hg
  simp [State.readValue, hb, hg, hs]

/-- R56 cases 4 and 8: a cell reads as its byte of the window. -/
theorem toNat_idleValue_cell (s : State) {p : Config.Params} {off : Nat} {size : Size} {loc : Location}
    (hl : locate p off size = some loc) (ho : 0x40 ≤ off) : (s.idleValue loc).toNat = (s.readByte off).toNat := by
  obtain ⟨b, hbase, rfl⟩ := location_of_cellOffset hl ho
  have hcell : s.cell b (off - b.base) = s.readByte off := by rw [State.cell, Nat.add_sub_cancel' hbase]
  rw [State.idleValue, hcell, BitVec.toNat_setWidth_of_le (by decide)]

theorem Status.toNat_busyWord (f : Status) : f.busyWord.toNat = (if f.ovr then 128 else 0) + 1 := by
  unfold Status.busyWord
  cases f.ovr <;> rfl

/-- R34, R56 case 3: `PARAM` as a number. -/
theorem toNat_paramWord {p : Config.Params} (h : p.Legal) : (paramWord p).toNat = p.keyMax * 65536 + p.textMax := by
  have hKey := keyMax_le h
  have hText := h.2
  rw [paramWord_of_legal h, BitVec.toNat_ofNat]
  simp only [Config.Params.keyMax] at hKey ⊢
  omega

/-- R30: the fields of `ERRINFO` side by side, as one number. -/
theorem ErrInfo.toNat_word (e : ErrInfo) :
    e.word.toNat = e.pos.toNat * 65536 + e.chr.toNat * 256 + e.code.toNat := by
  have hpos := e.pos.isLt
  have hchr := e.chr.isLt
  have hcode := e.code.isLt
  have hlow : e.code.toNat < 2 ^ 8 := by omega
  have hmid : e.chr.toNat <<< 8 + e.code.toNat < 2 ^ 16 := by rw [Nat.shiftLeft_eq]; omega
  have hword : e.word.toNat = e.pos.toNat <<< 16 ||| (e.chr.toNat <<< 8 ||| e.code.toNat) := by
    simp only [ErrInfo.word, BitVec.or_assoc, BitVec.toNat_or, BitVec.toNat_shiftLeft, BitVec.toNat_setWidth,
      Nat.shiftLeft_eq]
    congr 2 <;> omega
  rw [hword, ← Nat.shiftLeft_add_eq_or_of_lt hlow, ← Nat.shiftLeft_add_eq_or_of_lt hmid]
  simp only [Nat.shiftLeft_eq]
  omega

/-- Settles O15: the offset fixes the location read, the location and `BUSY` fix the value. -/
theorem readProcessingFollowsTheEightCases : Obligations.ReadProcessingFollowsTheEightCases := by
  intro s off size hp
  refine ⟨transact_read_refused, fun ha => ?_⟩
  obtain ⟨loc, hl⟩ := exists_locate_of_accepted ha
  have hreg := location_of_regOffset hl
  have hopen : ∀ r : Reg, off.toNat = r.offset → r ≠ .status → (Location.reg r).gated = false →
      s.readValue loc = s.idleValue (.reg r) := fun r ho hs hg => by
    rw [hreg r ho, readValue_ungated s (by simpa using hs) hg]
  have hidle : s.status.busy = false → ∀ r : Reg, off.toNat = r.offset →
      s.readValue loc = s.idleValue (.reg r) := fun hb r ho => by
    rw [hreg r ho, readValue_idle hb]
  refine ⟨s.readValue loc, transact_read_located hl, fun ho => hopen .cmd ho (by decide) rfl, fun ho => ?_,
    fun ho => hopen .cfg ho (by decide) rfl, fun ho => ?_, fun ho => hopen .ctrHi ho (by decide) rfl,
    fun ho => hopen .ctrLo ho (by decide) rfl, fun ho => ?_, fun ho hb => ?_, fun ho hb => hidle hb .status ho,
    fun ho hb => readValue_gated_busy hb ((gated_iff_resultOffset hp hl).2 ho), fun hb => ?_⟩
  · rw [hopen .param ho (by decide) rfl]
    exact toNat_paramWord hp
  · rw [hopen .txtlen ho (by decide) rfl]
    exact BitVec.toNat_setWidth_of_le (by decide)
  · have hs : loc ≠ .reg .status := by
      obtain ⟨b, -, rfl⟩ := location_of_cellOffset hl (by omega)
      simp
    have hg : loc.gated = false := by
      rw [Bool.eq_false_iff, ne_eq, gated_iff_resultOffset hp hl]
      unfold ResultOffset; omega
    rw [readValue_ungated s hs hg]
    exact toNat_idleValue_cell s hl (by omega)
  · rw [hreg .status ho, readValue_status_busy hb, Status.toNat_busyWord]
  · refine ⟨fun ho => ?_, fun ho => ?_, fun ho => ?_, fun ho => ?_, fun ho => ?_, fun ho => ?_⟩
    · rw [hidle hb .keylen ho]; exact BitVec.toNat_setWidth_of_le (by decide)
    · rw [hidle hb .errinfo ho]; exact ErrInfo.toNat_word _
    · rw [hidle hb .trunc ho]; exact BitVec.toNat_setWidth_of_le (by decide)
    · rw [hidle hb .codeval ho]; exact BitVec.toNat_setWidth_of_le (by decide)
    · rw [hidle hb .codelen ho]; exact BitVec.toNat_setWidth_of_le (by decide)
    · rw [readValue_idle hb]; exact toNat_idleValue_cell s hl (by omega)

/-! ### Reserved bits -/

/-- The reserved bits of each register (R24 to R33); `CMD`, `CTR_HI`, `CTR_LO`, `PARAM` have none. -/
def Reg.reserved : Reg → Word
  | .cmd | .ctrHi | .ctrLo | .param => 0
  | .status => 0xFFFFFF00
  | .cfg => 0xFFFFFEF0
  | .txtlen | .keylen => 0xFFFF0000
  | .errinfo => 0x000000F0
  | .trunc | .codeval => 0x80000000
  | .codelen => 0xFFFFFFF0

/-- A field of `w` bits placed at bit `k` is 0 under a mask that has none of those bits. -/
theorem field_and_eq_zero {w : Nat} (x : BitVec w) (k : Nat) {m : Word} (hm : ∀ i < w, m.getLsbD (k + i) = false) :
    x.setWidth 32 <<< k &&& m = 0 := by
  apply BitVec.eq_of_getLsbD_eq
  intro j hj
  by_cases hk : k ≤ j ∧ j - k < w
  · have hbit := hm (j - k) hk.2
    rw [Nat.add_sub_cancel' hk.1] at hbit
    simp [hbit]
  · have hout : j < k ∨ w ≤ j - k := by omega
    rcases hout with h | h
    · simp [h]
    · simp [BitVec.getLsbD_of_ge x _ h]

/-- The case of a field at bit 0. -/
theorem setWidth_and_eq_zero {w : Nat} (x : BitVec w) {m : Word} (hm : ∀ i < w, m.getLsbD (0 + i) = false) :
    x.setWidth 32 &&& m = 0 := by
  simpa using field_and_eq_zero x 0 hm

/-- R24: no flag stands at a reserved bit of `STATUS`. -/
theorem Status.word_and_reserved (f : Status) : f.word &&& Reg.status.reserved = 0 := by
  have hflag : ∀ (b : Bool) (k : Nat), (∀ i < 1, Reg.status.reserved.getLsbD (k + i) = false) →
      flagBit b k &&& Reg.status.reserved = 0 := fun b k => field_and_eq_zero (BitVec.ofBool b) k
  simp only [Status.word, BitVec.and_or_distrib_right, hflag f.busy 0 (by decide), hflag f.done 1 (by decide),
    hflag f.err 2 (by decide), hflag f.keyvalid 3 (by decide), hflag f.dvalid 4 (by decide),
    hflag f.tvalid 5 (by decide), hflag f.cvalid 6 (by decide), hflag f.ovr 7 (by decide), BitVec.or_self]

theorem Status.busyWord_and_reserved (f : Status) : f.busyWord &&& Reg.status.reserved = 0 := by
  unfold Status.busyWord
  cases f.ovr <;> rfl

theorem Cfg.word_and_reserved (c : Cfg) : c.word &&& Reg.cfg.reserved = 0 := by
  have hie : flagBit c.ie 8 &&& Reg.cfg.reserved = 0 := field_and_eq_zero (BitVec.ofBool c.ie) 8 (by decide)
  rw [Cfg.word, BitVec.and_or_distrib_right, hie, setWidth_and_eq_zero c.digits (by decide), BitVec.or_self]

theorem ErrInfo.word_and_reserved (e : ErrInfo) : e.word &&& Reg.errinfo.reserved = 0 := by
  rw [ErrInfo.word, BitVec.and_or_distrib_right, BitVec.and_or_distrib_right, field_and_eq_zero e.pos 16 (by decide),
    field_and_eq_zero e.chr 8 (by decide), setWidth_and_eq_zero e.code (by decide), BitVec.or_self, BitVec.or_self]

theorem idleValue_and_reserved (s : State) (r : Reg) : s.idleValue (.reg r) &&& r.reserved = 0 := by
  cases r with
  | cmd | ctrHi | ctrLo | param => exact BitVec.and_zero
  | status => exact s.status.word_and_reserved
  | cfg => exact s.cfg.word_and_reserved
  | txtlen => exact setWidth_and_eq_zero s.txtlen (by decide)
  | keylen => exact setWidth_and_eq_zero s.keylen (by decide)
  | errinfo => exact s.errinfo.word_and_reserved
  | trunc => exact setWidth_and_eq_zero s.trunc (by decide)
  | codeval => exact setWidth_and_eq_zero s.codeval (by decide)
  | codelen => exact setWidth_and_eq_zero s.codelen (by decide)

/-- R57: reserved bits read 0, in the busy window too. -/
theorem readValue_and_reserved (s : State) (r : Reg) : s.readValue (.reg r) &&& r.reserved = 0 := by
  unfold State.readValue
  split
  case isTrue h =>
    obtain ⟨-, h⟩ := h
    injection h with h
    rw [h]
    exact s.status.busyWord_and_reserved
  case isFalse =>
    split
    · exact BitVec.zero_and
    · exact idleValue_and_reserved s r

theorem transact_readReg_reserved (s : State) (r : Reg) :
    ∃ v, (s.transact (.read (BitVec.ofNat 14 r.offset) .four)).reply = some (.read .okay v) ∧ v &&& r.reserved = 0 := by
  have hl : locate s.params (BitVec.ofNat 14 r.offset).toNat .four = some (.reg r) := by
    rw [r.toNat_offset, locate_four]
  exact ⟨s.readValue (.reg r), by rw [transact_read_located hl], readValue_and_reserved s r⟩

theorem idleValue_reply (s : State) (a : Option Reply) (loc : Location) :
    ({ s with reply := a } : State).idleValue loc = s.idleValue loc := by
  rcases loc with r | ⟨b, i⟩
  · cases r <;> rfl
  · rfl

/-- A register read right after it was written reads what the write left there. -/
theorem transact_writeReg_readReg {s : State} (hb : s.status.busy = false) (r : Reg) (v : Word)
    (hb' : (s.idleWrite v (.reg r)).status.busy = false) :
    ((s.transact (.write (BitVec.ofNat 14 r.offset) (.word v))).transact
      (.read (BitVec.ofNat 14 r.offset) .four)).reply =
      some (.read .okay ((s.idleWrite v (.reg r)).idleValue (.reg r))) := by
  rw [transact_writeReg hb, ← idleValue_reply _ (some (.write .okay))]
  exact transact_readReg (s := { s.idleWrite v (.reg r) with reply := some (.write .okay) }) hb' r

/-- R57: what `CFG` keeps of a written word. -/
theorem Cfg.word_ofWord (v : Word) : (Cfg.ofWord v).word = v &&& 0x0000010F := by
  have hmask : ∀ i < 32, (0x0000010F : Word).getLsbD i = decide (i = 8 ∨ i < 4) := by decide
  apply BitVec.eq_of_getLsbD_eq
  intro i hi
  simp only [Cfg.word, Cfg.ofWord, BitVec.getLsbD_or, BitVec.getLsbD_and, getLsbD_flagBit _ _ _ hi, hmask i hi,
    BitVec.getLsbD_setWidth, BitVec.getLsbD_extractLsb', Nat.zero_add, hi]
  by_cases h8 : i = 8
  · simp [h8]
  · simp [h8, Bool.and_comm]

/-- R57: what `TXTLEN` keeps of a written word. -/
theorem setWidth_extract_txtlen (v : Word) : (v.extractLsb' 0 16).setWidth 32 = v &&& 0x0000FFFF := by
  apply BitVec.eq_of_toNat_eq
  rw [BitVec.toNat_setWidth_of_le (by decide), BitVec.extractLsb'_toNat, Nat.shiftRight_zero, BitVec.toNat_and]
  exact (Nat.and_two_pow_sub_one_eq_mod v.toNat 16).symm

/-- R57: a write to `STATUS` looks at bits 1, 2 and 7 only. -/
theorem Status.writeOneToClear_mask (f : Status) (v : Word) :
    f.writeOneToClear v = f.writeOneToClear (v &&& 0x00000086) := by
  simp [Status.writeOneToClear]

/-- Settles O17: the kept bits of each written register by its mask, and each register's reserved bits at a read. -/
theorem reservedRegisterBitsAreDiscarded : Obligations.ReservedRegisterBitsAreDiscarded := by
  refine ⟨fun s v hb => ⟨?_, ?_, ?_⟩, fun s p hp => ?_⟩
  · rw [← Cfg.word_ofWord]
    exact transact_writeReg_readReg hb .cfg v hb
  · rw [← setWidth_extract_txtlen]
    exact transact_writeReg_readReg hb .txtlen v hb
  · have hstatus : ∀ w, s.transact (.write 0x0004 (.word w)) = { s.acknowledge w with reply := some (.write .okay) } :=
      transact_writeReg hb .status
    rw [hstatus, hstatus, State.acknowledge, Status.writeOneToClear_mask]
    rfl
  · obtain ⟨r, -, rfl⟩ := List.mem_map (f := fun r : Reg => (BitVec.ofNat 14 r.offset, r.reserved))
      (l := [.status, .cfg, .txtlen, .keylen, .errinfo, .trunc, .codeval, .codelen]).1 hp
    exact transact_readReg_reserved s r

end Sys2Proof.Machine
end

section
/-! Family 30_encoding: the opcode map on every command word (R72), by the word's value. -/

namespace Sys2Proof

/-- R72, R75: reserved bits make a word illegal before its `op` is looked at. -/
theorem decode_of_rsvField_ne {w : Word} (h : rsvField w ≠ 0) : decode w = .illegal .reservedBits := if_pos h

/-- R72, R74: with the reserved bits 0, an `op` with no row makes the word illegal. -/
theorem decode_of_decodeOp_none {w : Word} (hr : rsvField w = 0) (ho : decodeOp (opField w) = none) :
    decode w = .illegal .reservedOpcode := by
  simp [decode, hr, ho]

/-- R74: the rows are those of `op` 0x01 to 0x06. -/
theorem opcode_toNat_range (i : Instr) : 1 ≤ (opcode i).toNat ∧ (opcode i).toNat ≤ 6 := by cases i <;> decide

theorem decodeOp_eq_none {op : BitVec 8} (h : op.toNat = 0 ∨ 7 ≤ op.toNat) : decodeOp op = none := by
  cases hd : decodeOp op with
  | none => rfl
  | some i =>
    have hop : op = opcode i := opcode_of_decodeOp hd
    have hrange := opcode_toNat_range i
    rw [← hop] at hrange
    omega

theorem decode_of_toNat_eq {w : Word} {i : Instr} (h : w.toNat = (encode i).toNat) : decode w = .command i := by
  rw [BitVec.eq_of_toNat_eq h, decode_encode]

/-- Settles O1: the reserved bits, then the six rows by their encoded words, then the values below 256 with no row. -/
theorem opcodeMapDecodesEveryWord : Obligations.OpcodeMapDecodesEveryWord := by
  intro w
  refine ⟨fun hw => ?reservedBits, decode_of_toNat_eq (i := .b32dec), decode_of_toNat_eq (i := .hmac),
    decode_of_toNat_eq (i := .trunc), decode_of_toNat_eq (i := .fmt), decode_of_toNat_eq (i := .hotp),
    decode_of_toNat_eq (i := .clr), fun hw => ?noRow⟩
  case reservedBits =>
    exact decode_of_rsvField_ne fun hr => absurd ((rsvField_eq_zero_iff w).1 hr) (by omega)
  case noRow =>
    have hlt : w.toNat < 256 := by omega
    have hop : (opField w).toNat = w.toNat := (opField_toNat w).trans (Nat.mod_eq_of_lt hlt)
    exact decode_of_decodeOp_none ((rsvField_eq_zero_iff w).2 hlt) (decodeOp_eq_none (by omega))

end Sys2Proof
end

section
/-! Family 40_base32: the alphabet (R91, R93), the padding strip (R92) and `B32DEC` (R98, R101). -/

namespace Sys2Proof.Machine

/-! ### The alphabet -/

/-- R91: the fold on cell values. -/
theorem toNat_foldCase (c : Byte) :
    (foldCase c).toNat = if 0x61 ≤ c.toNat ∧ c.toNat ≤ 0x7A then c.toNat - 0x20 else c.toNat := by
  by_cases h : 0x61 ≤ c.toNat ∧ c.toNat ≤ 0x7A
  · have hle : (0x20 : Byte) ≤ c := BitVec.le_def.2 (Nat.le_trans (by decide) h.1)
    have hfold : foldCase c = c - 0x20 := if_pos h
    rw [if_pos h, hfold, BitVec.toNat_sub_of_le hle]
    rfl
  · have hfold : foldCase c = c := if_neg h
    rw [if_neg h, hfold]

/-- The low five bits of a difference of cell values. -/
theorem setWidth_sub_byte {f d : Byte} (h : d.toNat ≤ f.toNat) :
    (f - d).setWidth 5 = BitVec.ofNat 5 (f.toNat - d.toNat) := by
  rw [← BitVec.ofNat_toNat, BitVec.toNat_sub_of_le (BitVec.le_def.2 h)]

/-- R93: a cell that folds to a letter. -/
theorem b32Class_letter {c : Byte} (h : 0x41 ≤ (foldCase c).toNat ∧ (foldCase c).toNat ≤ 0x5A) :
    b32Class c = some (BitVec.ofNat 5 ((foldCase c).toNat - 0x41)) :=
  (if_pos h).trans (congrArg some (setWidth_sub_byte h.1))

/-- R93: a cell that folds to a digit of the alphabet; no letter is one. -/
theorem b32Class_digit {c : Byte} (h : 0x32 ≤ (foldCase c).toNat ∧ (foldCase c).toNat ≤ 0x37) :
    b32Class c = some (BitVec.ofNat 5 ((foldCase c).toNat - 0x18)) := by
  have hletter : ¬(0x41 ≤ (foldCase c).toNat ∧ (foldCase c).toNat ≤ 0x5A) := by omega
  have hsub : (0x18 : Byte).toNat ≤ (foldCase c).toNat := Nat.le_trans (by decide) h.1
  exact (if_neg hletter).trans ((if_pos h).trans (congrArg some (setWidth_sub_byte hsub)))

/-- R93: "Everything else is `Invalid`". -/
theorem b32Class_invalid {c : Byte} (hl : ¬(0x41 ≤ (foldCase c).toNat ∧ (foldCase c).toNat ≤ 0x5A))
    (hd : ¬(0x32 ≤ (foldCase c).toNat ∧ (foldCase c).toNat ≤ 0x37)) : b32Class c = none :=
  (if_neg hl).trans (if_neg hd)

/-- Settles O24: a lower-case letter folds to a letter, every other cell to itself. -/
theorem cellClassesFollowTheAlphabet : Obligations.CellClassesFollowTheAlphabet := by
  intro c
  have hfold := toNat_foldCase c
  refine ⟨fun h => ?upper, fun h => ?lower, fun h => ?digit, fun hu hl hd => ?other⟩
  case upper =>
    rw [if_neg (by omega)] at hfold
    rw [b32Class_letter (by omega), hfold]
  case lower =>
    rw [if_pos h] at hfold
    rw [b32Class_letter (by omega), hfold, Nat.sub_sub]
  case digit =>
    rw [if_neg (by omega)] at hfold
    rw [b32Class_digit (by omega), hfold]
  case other =>
    rw [if_neg hl] at hfold
    exact b32Class_invalid (by omega) (by omega)

/-! ### The padding strip -/

/-- R92, one cell at a time: a cell goes only when everything behind it went and it is `'='`. -/
theorem stripPad_cons (c : Byte) (cs : List Byte) :
    stripPad (c :: cs) = if stripPad cs = [] ∧ c = padChar then [] else c :: stripPad cs := by
  rw [stripPad]
  cases stripPad cs with
  | nil => simp only [true_and]
  | cons r rs => simp only [reduceCtorEq, false_and, if_false]

/-- R92: what is removed is a run of `'='` at the end. -/
theorem exists_eq_stripPad_append (t : List Byte) : ∃ k, t = stripPad t ++ List.replicate k padChar := by
  induction t with
  | nil => exact ⟨0, rfl⟩
  | cons c cs ih =>
    obtain ⟨k, hk⟩ := ih
    rw [stripPad_cons]
    split
    case isTrue h =>
      obtain ⟨hnil, rfl⟩ := h
      rw [hnil] at hk
      exact ⟨k + 1, congrArg (padChar :: ·) hk⟩
    case isFalse => exact ⟨k, congrArg (c :: ·) hk⟩

/-- R92: the removed run is maximal. -/
theorem getLast?_stripPad_ne (t : List Byte) : (stripPad t).getLast? ≠ some padChar := by
  induction t with
  | nil => simp [stripPad]
  | cons c cs ih =>
    rw [stripPad_cons]
    split
    case isTrue => simp
    case isFalse h =>
      cases hs : stripPad cs with
      | nil => simpa [hs] using h
      | cons r rs => rwa [List.getLast?_cons_cons, ← hs]

theorem stripPad_replicate (k : Nat) : stripPad (List.replicate k padChar) = [] := by
  induction k with
  | zero => rfl
  | succ k ih => rw [List.replicate_succ, stripPad_cons, if_pos ⟨ih, rfl⟩]

/-- R92: any number of trailing `'='` strips to the same text. -/
theorem stripPad_append_replicate (t : List Byte) (k : Nat) :
    stripPad (t ++ List.replicate k padChar) = stripPad t := by
  induction t with
  | nil => exact stripPad_replicate k
  | cons c cs ih => rw [List.cons_append, stripPad_cons, stripPad_cons, ih]

/-- R101: "Because only a trailing run is stripped, the index in the stripped text equals the index in `TXT`". -/
theorem getElem?_stripPad {t : List Byte} {i : Nat} (h : i < (stripPad t).length) : (stripPad t)[i]? = t[i]? := by
  obtain ⟨k, hk⟩ := exists_eq_stripPad_append t
  conv_rhs => rw [hk, List.getElem?_append_left h]

/-- Settles O25: the removed cells by induction on the text, and the decoder sees the stripped text only. -/
theorem onlyTrailingPaddingIsStripped : Obligations.OnlyTrailingPaddingIsStripped := by
  refine ⟨fun t => ⟨exists_eq_stripPad_append t, getLast?_stripPad_ne t⟩, fun t k => ?_⟩
  exact congrArg (b32Loop · 0 0 0 []) (stripPad_append_replicate t k)

/-! ### `B32DEC` -/

/-- R98, the part common to every outcome: `DIGEST` and downstream cleared, and everything outside `KEY`, `DIGEST`,
`CODE` kept. -/
structure KeyReplaced (s t : State) : Prop where
  digest : DigestCleared t
  trunc : TruncCleared t
  code : CodeCleared t
  inputs : SameInputs s t
  control : SameControl s t
  bytes : SameBytesOutside s t [.key, .digest, .code]

/-- R39: a cell of an invalidated buffer reads 0. -/
theorem State.cell_invalidateKey (s : State) {b : Buffer} (hb : b = .key ∨ b = .digest ∨ b = .code) {i : Nat}
    (hi : i < b.size s.params) : s.invalidateKey.cell b i = 0 := by
  have hin : InBuffer s.params b (b.base + i) := ⟨Nat.le_add_right .., Nat.add_lt_add_left hi _⟩
  rw [State.cell, State.readByte_invalidateKey, if_pos]
  rcases hb with rfl | rfl | rfl
  · exact .inl hin
  · exact .inr (.inl hin)
  · exact .inr (.inr hin)

/-- R39: invalidating `KEY` and downstream. -/
theorem keyReplaced_invalidateKey (s : State) : KeyReplaced s s.invalidateKey where
  digest := ⟨rfl, fun _ => s.cell_invalidateKey (.inr (.inl rfl))⟩
  trunc := ⟨rfl, rfl⟩
  code := ⟨rfl, rfl, rfl, fun _ => s.cell_invalidateKey (.inr (.inr rfl))⟩
  inputs := ⟨rfl, rfl, rfl, rfl⟩
  control := ⟨rfl, rfl, rfl, rfl, rfl⟩
  bytes a ha := by
    rw [State.readByte_invalidateKey, if_neg]
    rintro (h | h | h)
    · exact ha .key (by simp) h
    · exact ha .digest (by simp) h
    · exact ha .code (by simp) h

theorem keyCleared_invalidateKey (s : State) : KeyCleared s.invalidateKey :=
  ⟨rfl, rfl, fun _ => s.cell_invalidateKey (.inl rfl)⟩

/-- R98, the last lines of the rule: the bytes to `KEY`, their number to `KEYLEN`, `KEYVALID <- 1`. -/
def State.acceptKey (u : State) (k : List Byte) : State :=
  { u.storeBuffer .key k with keylen := BitVec.ofNat 16 k.length, status := { u.status with keyvalid := true } }

theorem State.readByte_acceptKey (u : State) (k : List Byte) (a : Nat) :
    (u.acceptKey k).readByte a =
      if 0x2000 ≤ a ∧ a < 0x2000 + k.length then k.getD (a - 0x2000) 0 else u.readByte a :=
  u.readByte_storeBuffer .key k a

/-- R51: the other buffers lie below `KEY`. -/
theorem State.cell_acceptKey_of_lt (u : State) (k : List Byte) {b : Buffer} {i : Nat} (h : b.base + i < 0x2000) :
    (u.acceptKey k).cell b i = u.cell b i := by
  rw [State.cell, State.readByte_acceptKey, if_neg (by omega), State.cell]

/-- R98: `acceptKey` is how the body of `B32DEC` ends. -/
theorem b32decBody_acceptKey {s : State} {out : List Byte} (hl : s.params.Legal)
    (ht : s.txtlen.toNat ≤ s.params.textMax) (h : b32Decode s.text = .ok out) (hne : out ≠ []) :
    b32decBody s = .ended (s.invalidateKey.acceptKey out) :=
  b32decBody_ok hl ht h hne

/-- A key that fits `KEY` is stored outside every other buffer. -/
theorem KeyReplaced.acceptKey {s u : State} (h : KeyReplaced s u) {k : List Byte} (hk : k.length ≤ s.params.keyMax) :
    KeyReplaced s (u.acceptKey k) where
  digest := ⟨h.digest.dvalid, fun i hi =>
    (u.cell_acceptKey_of_lt k (Nat.lt_trans (Nat.add_lt_add_left hi _) (by decide))).trans (h.digest.cells i hi)⟩
  trunc := ⟨h.trunc.tvalid, h.trunc.trunc⟩
  code := ⟨h.code.cvalid, h.code.codeval, h.code.codelen, fun i hi =>
    (u.cell_acceptKey_of_lt k (Nat.lt_trans (Nat.add_lt_add_left hi _) (by decide))).trans (h.code.cells i hi)⟩
  inputs := ⟨h.inputs.cfg, h.inputs.txtlen, h.inputs.ctrHi, h.inputs.ctrLo⟩
  control := ⟨h.control.ovr, h.control.cmdlatch, h.control.params, h.control.schedule, h.control.reply⟩
  bytes a ha := by
    have hkey : ¬InBuffer s.params .key a := ha .key (by simp)
    simp only [InBuffer, Buffer.base_key, Buffer.size_key] at hkey
    rw [State.readByte_acceptKey, if_neg (by omega)]
    exact h.bytes a ha

/-- R98, R36: the accepted key over a cleared `KEY`. -/
theorem keyHolds_acceptKey {u : State} (hu : KeyCleared u) {k : List Byte} (hk : k.length < 2 ^ 16) :
    KeyHolds (u.acceptKey k) k := by
  have hlen : (u.acceptKey k).keylen.toNat = k.length := Nat.mod_eq_of_lt hk
  refine ⟨rfl, hlen, ?bytes, fun i hki hi => ?tail⟩
  case bytes =>
    rw [State.keyBytes, hlen]
    exact u.slice_storeBuffer .key k
  case tail =>
    rw [State.cell, State.readByte_acceptKey, if_neg (by rw [Buffer.base_key]; omega)]
    exact hu.cells i hi

/-- R15, R201: a completion touches `BUSY`, `DONE`, `ERR` and `ERRINFO` only. -/
theorem KeyReplaced.finish {s : State} {b : Body} (h : KeyReplaced s b.state) : KeyReplaced s b.finish := by
  cases b with
  | ended u | raised u r =>
    exact {
      digest := ⟨h.digest.dvalid, h.digest.cells⟩
      trunc := ⟨h.trunc.tvalid, h.trunc.trunc⟩
      code := ⟨h.code.cvalid, h.code.codeval, h.code.codelen, h.code.cells⟩
      inputs := ⟨h.inputs.cfg, h.inputs.txtlen, h.inputs.ctrHi, h.inputs.ctrLo⟩
      control := ⟨h.control.ovr, h.control.cmdlatch, h.control.params, h.control.schedule, h.control.reply⟩
      bytes := h.bytes }

theorem exec_b32dec_ended {s u : State} (h : b32decBody s = .ended u) : exec .b32dec s = .next u.completeOk := by
  rw [exec_b32dec, h, Body.finish_ended]

theorem exec_b32dec_raised {s u : State} {r : Raise} (h : b32decBody s = .raised u r) :
    exec .b32dec s = .next (u.enterFault r) := by
  rw [exec_b32dec, h, Body.finish_raised]

/-- Settles O29: the body accepts the decoded bytes over the invalidated key, or raises right after the invalidation. -/
theorem b32decFollowsItsRule : Obligations.B32decFollowsItsRule := by
  intro s hp
  have hinv := keyReplaced_invalidateKey s
  refine ⟨fun out ht hdec hne => ?accepted, fun code chr pos hfault => ?faulted⟩
  case accepted =>
    have hfit := length_le_keyMax ht hdec
    have hmax := keyMax_le hp
    obtain ⟨hkeyvalid, hkeylen, hbytes, htail⟩ :=
      keyHolds_acceptKey (k := out) (keyCleared_invalidateKey s) (by omega)
    obtain ⟨hdigest, htrunc, hcode, hinputs, hcontrol, houtside⟩ :=
      KeyReplaced.finish (b := .ended _) (hinv.acceptKey hfit)
    exact ⟨_, exec_b32dec_ended (b32decBody_acceptKey hp ht hdec hne), ⟨rfl, rfl, rfl, rfl⟩,
      ⟨hkeyvalid, hkeylen, hbytes, htail⟩, hfit, hdigest, htrunc, hcode, hinputs, hcontrol, houtside⟩
  case faulted =>
    have hraise : ∃ c : FaultCode, c.number = code ∧ b32decBody s = .raised s.invalidateKey ⟨c, chr, pos⟩ := by
      rcases hfault with ⟨ht, rfl, rfl, rfl⟩ | ⟨ht, ⟨p, hdec, rfl, rfl⟩ | ⟨hdec, rfl, rfl, rfl⟩⟩
      · exact ⟨.eLen, rfl, b32decBody_tooLong ht⟩
      · exact ⟨.eB32char, rfl, b32decBody_badChar hp ht hdec⟩
      · exact ⟨.eB32empty, rfl, b32decBody_empty hp ht hdec⟩
    obtain ⟨c, rfl, hbody⟩ := hraise
    obtain ⟨hkeyvalid, hkeylen, hcells⟩ := keyCleared_invalidateKey s
    obtain ⟨hdigest, htrunc, hcode, hinputs, hcontrol, houtside⟩ :=
      KeyReplaced.finish (b := .raised _ ⟨c, chr, pos⟩) hinv
    exact ⟨_, exec_b32dec_raised hbody, ⟨rfl, rfl, rfl, rfl⟩, ⟨hkeyvalid, hkeylen, hcells⟩,
      hdigest, htrunc, hcode, hinputs, hcontrol, houtside⟩

/-! ### The reported character -/

/-- R101: cell `i` of the stripped text is `TXT[i]`. -/
theorem getElem?_stripPad_text {s : State} {i : Nat} (h : i < (stripPad s.text).length) :
    (stripPad s.text)[i]? = some (s.cell .txt i) := by
  have hi : i < s.text.length := Nat.lt_of_lt_of_le h (length_stripPad_le s.text)
  have hcell : s.text.getD i 0 = s.cell .txt i := s.getD_slice .txt _ i (by rwa [State.length_text] at hi) 0
  rw [getElem?_stripPad h, List.getElem?_eq_getElem hi, ← hcell, List.getD_eq_getElem _ _ hi]

/-- R94, R101: the decoder stops at the first cell outside the alphabet. -/
theorem b32Decode_text_err {s : State} {i : Nat} (hi : i < (stripPad s.text).length)
    (hbad : b32Class (s.cell .txt i) = none) (hgood : ∀ j, j < i → b32Class (s.cell .txt j) ≠ none) :
    b32Decode s.text = .err (s.cell .txt i) i := by
  refine (b32Loop_err ..).2 ⟨i, (Nat.zero_add i).symm, getElem?_stripPad_text hi, hbad, fun j hj x hx => ?_⟩
  rw [getElem?_stripPad_text (hj.trans hi)] at hx
  exact Option.some.inj hx ▸ hgood j hj

/-- Settles O30: the decoder's error is raised as it stands, and an index below `TXTLEN` fits `POS`. -/
theorem firstOffendingCharacterIsReported : Obligations.FirstOffendingCharacterIsReported := by
  intro s i hp ht hi hbad hgood
  have hbody := b32decBody_badChar hp ht (b32Decode_text_err hi hbad hgood)
  have hpos : i < 2 ^ 16 := by
    have hle := length_stripPad_le s.text
    have hlen := s.txtlen.isLt
    rw [State.length_text] at hle
    omega
  exact ⟨_, exec_b32dec_raised hbody, rfl, rfl, rfl, Nat.mod_eq_of_lt hpos, rfl⟩

end Sys2Proof.Machine
end

section
/-! Family 41_hmac_sha1: the message of `HMAC` (R110) and the rule of the command (R121). -/

namespace Sys2Proof.Machine

/-! ### The message -/

/-- R28, R110: the bytes of `{CTR_HI, CTR_LO}` are those of `CTR_HI` and then those of `CTR_LO`. -/
theorem bytesOfCounter_append (hi lo : Word) : bytesOfCounter (hi ++ lo) = bytesOfWord hi ++ bytesOfWord lo := by
  have hhi : (hi ++ lo).extractLsb' 32 32 = hi := BitVec.extractLsb'_append_eq_left
  have hlo : (hi ++ lo).extractLsb' 0 32 = lo := BitVec.extractLsb'_append_eq_right
  rw [bytesOfCounter, hhi, hlo]

/-- Settles O32: the counter's bytes are its two words' bytes, high word first. -/
theorem counterIsSerialisedBigEndian : Obligations.CounterIsSerialisedBigEndian :=
  fun s => bytesOfCounter_append s.ctrHi s.ctrLo

/-! ### `HMAC` -/

/-- R121, the part common to both outcomes: `TRUNC` and the code cleared, and everything outside `DIGEST` and `CODE`
kept. -/
structure DigestReplaced (s t : State) : Prop where
  trunc : TruncCleared t
  code : CodeCleared t
  key : SameKey s t
  inputs : SameInputs s t
  control : SameControl s t
  bytes : SameBytesOutside s t [.digest, .code]

/-- R39: a cell of an invalidated buffer reads 0. -/
theorem State.cell_invalidateDigest (s : State) {b : Buffer} (hb : b = .digest ∨ b = .code) {i : Nat}
    (hi : i < b.size s.params) : s.invalidateDigest.cell b i = 0 := by
  have hin : InBuffer s.params b (b.base + i) := ⟨Nat.le_add_right .., Nat.add_lt_add_left hi _⟩
  rw [State.cell, State.readByte_invalidateDigest, if_pos]
  rcases hb with rfl | rfl
  · exact .inl hin
  · exact .inr hin

/-- R39: invalidating `DIGEST` and downstream. -/
theorem digestReplaced_invalidateDigest (s : State) : DigestReplaced s s.invalidateDigest where
  trunc := ⟨rfl, rfl⟩
  code := ⟨rfl, rfl, rfl, fun _ => s.cell_invalidateDigest (.inr rfl)⟩
  key := ⟨rfl, rfl⟩
  inputs := ⟨rfl, rfl, rfl, rfl⟩
  control := ⟨rfl, rfl, rfl, rfl, rfl⟩
  bytes a ha := by
    rw [State.readByte_invalidateDigest, if_neg]
    rintro (h | h)
    · exact ha .digest (by simp) h
    · exact ha .code (by simp) h

theorem digestCleared_invalidateDigest (s : State) : DigestCleared s.invalidateDigest :=
  ⟨rfl, fun _ => s.cell_invalidateDigest (.inl rfl)⟩

/-- R121, the last lines of the rule: the digest to `DIGEST`, `DVALID <- 1`. -/
def State.acceptDigest (u : State) (d : List Byte) : State :=
  { u.storeBuffer .digest d with status := { u.status with dvalid := true } }

/-- A digest of 20 bytes stays inside `DIGEST`. -/
theorem State.readByte_acceptDigest_outside (u : State) {d : List Byte} (hd : d.length = 20) {a : Nat}
    (ha : ¬InBuffer u.params .digest a) : (u.acceptDigest d).readByte a = u.readByte a := by
  have hout : ¬(Buffer.digest.base ≤ a ∧ a < Buffer.digest.base + d.length) := by rwa [hd]
  exact (u.readByte_storeBuffer .digest d a).trans (if_neg hout)

/-- R121: `acceptDigest` is how the body of `HMAC` ends under a valid key. -/
theorem hmacBody_acceptDigest {s : State} (h : s.status.keyvalid = true) :
    hmacBody s = .ended (s.invalidateDigest.acceptDigest (hmacSha1 s.keyBytes (bytesOfCounter (s.ctrHi ++ s.ctrLo)))) :=
  hmacBody_key h

/-- The digest is stored outside every buffer the command leaves or clears. -/
theorem DigestReplaced.acceptDigest {s u : State} (h : DigestReplaced s u) {d : List Byte} (hd : d.length = 20) :
    DigestReplaced s (u.acceptDigest d) where
  trunc := ⟨h.trunc.tvalid, h.trunc.trunc⟩
  code := ⟨h.code.cvalid, h.code.codeval, h.code.codelen, fun i hi => by
    have hout : ¬InBuffer u.params .digest (Buffer.code.base + i) := by
      simp only [InBuffer, Buffer.base_digest, Buffer.size_digest, Buffer.base_code]
      omega
    exact (u.readByte_acceptDigest_outside hd hout).trans (h.code.cells i hi)⟩
  key := ⟨h.key.keyvalid, h.key.keylen⟩
  inputs := ⟨h.inputs.cfg, h.inputs.txtlen, h.inputs.ctrHi, h.inputs.ctrLo⟩
  control := ⟨h.control.ovr, h.control.cmdlatch, h.control.params, h.control.schedule, h.control.reply⟩
  bytes a ha := (u.readByte_acceptDigest_outside hd (ha .digest (by simp))).trans (h.bytes a ha)

/-- R37: the accepted digest is what `DIGEST[0..20]` reads. -/
theorem digestHolds_acceptDigest (u : State) {d : List Byte} (hd : d.length = 20) :
    DigestHolds (u.acceptDigest d) d := by
  have hslice : (u.storeBuffer .digest d).slice .digest d.length = d := u.slice_storeBuffer .digest d
  rw [hd] at hslice
  exact ⟨rfl, hslice⟩

/-- R15, R201: a completion touches `BUSY`, `DONE`, `ERR` and `ERRINFO` only. -/
theorem DigestReplaced.finish {s : State} {b : Body} (h : DigestReplaced s b.state) : DigestReplaced s b.finish := by
  cases b with
  | ended u | raised u r =>
    exact {
      trunc := ⟨h.trunc.tvalid, h.trunc.trunc⟩
      code := ⟨h.code.cvalid, h.code.codeval, h.code.codelen, h.code.cells⟩
      key := ⟨h.key.keyvalid, h.key.keylen⟩
      inputs := ⟨h.inputs.cfg, h.inputs.txtlen, h.inputs.ctrHi, h.inputs.ctrLo⟩
      control := ⟨h.control.ovr, h.control.cmdlatch, h.control.params, h.control.schedule, h.control.reply⟩
      bytes := h.bytes }

theorem exec_hmac_key {s : State} (h : s.status.keyvalid = true) :
    exec .hmac s = .next
      (s.invalidateDigest.acceptDigest (hmacSha1 s.keyBytes (bytesOfCounter (s.ctrHi ++ s.ctrLo)))).completeOk := by
  rw [exec_hmac, hmacBody_acceptDigest h, Body.finish_ended]

theorem exec_hmac_noKey {s : State} (h : s.status.keyvalid = false) :
    exec .hmac s = .next (s.invalidateDigest.enterFault (.plain .eNokey)) := by
  rw [exec_hmac, hmacBody_noKey h, Body.finish_raised]

/-- Settles O36: the body accepts the digest over the invalidated results, or raises right after the invalidation. -/
theorem hmacFollowsItsRule : Obligations.HmacFollowsItsRule := by
  intro s
  have hinv := digestReplaced_invalidateDigest s
  refine ⟨fun hkey => ?accepted, fun hkey => ?noKey⟩
  case accepted =>
    have hlen := length_hmacSha1 s.keyBytes (bytesOfCounter (s.ctrHi ++ s.ctrLo))
    obtain ⟨hdvalid, hbytes⟩ := digestHolds_acceptDigest s.invalidateDigest hlen
    obtain ⟨htrunc, hcode, hsame, hinputs, hcontrol, houtside⟩ :=
      DigestReplaced.finish (b := .ended _) (hinv.acceptDigest hlen)
    exact ⟨_, exec_hmac_key hkey, ⟨rfl, rfl, rfl, rfl⟩, ⟨hdvalid, hbytes⟩, htrunc, hcode, hsame, hinputs,
      hcontrol, houtside⟩
  case noKey =>
    obtain ⟨hdvalid, hcells⟩ := digestCleared_invalidateDigest s
    obtain ⟨htrunc, hcode, hsame, hinputs, hcontrol, houtside⟩ :=
      DigestReplaced.finish (b := .raised _ (.plain .eNokey)) hinv
    exact ⟨_, exec_hmac_noKey hkey, ⟨rfl, rfl, rfl, rfl⟩, ⟨hdvalid, hcells⟩, htrunc, hcode, hsame, hinputs,
      hcontrol, houtside⟩

end Sys2Proof.Machine
end

section
/-! Family 42_truncate_format: dynamic truncation (R140), the rendering of a code (R145), the rules of `TRUNC` (R142)
and `FMT` (R146). -/

namespace Sys2Proof.Machine

/-! ### Dynamic truncation on integers -/

/-- Two fields side by side above bit `j`: the lower one does not reach the upper one. -/
theorem shiftLeft_or_shiftLeft_of_lt {x y i : Nat} (hy : y < 2 ^ i) (j : Nat) :
    x <<< (i + j) ||| y <<< j = (x <<< i + y) <<< j := by
  rw [Nat.shiftLeft_add_eq_or_of_lt hy, Nat.shiftLeft_or_distrib, ← Nat.shiftLeft_add]

/-- One byte of a word, as a number: no bit is shifted out. -/
theorem toNat_byteField (b : Byte) {k : Nat} (hk : k ≤ 24) : (b.setWidth 32 <<< k).toNat = b.toNat <<< k := by
  have hlt : b.toNat <<< k < 2 ^ 32 :=
    calc b.toNat <<< k = b.toNat * 2 ^ k := Nat.shiftLeft_eq ..
      _ < 2 ^ 8 * 2 ^ k := Nat.mul_lt_mul_of_pos_right b.isLt (Nat.two_pow_pos k)
      _ ≤ 2 ^ 8 * 2 ^ 24 := Nat.mul_le_mul_left _ (Nat.pow_le_pow_right (by decide) hk)
  rw [BitVec.toNat_shiftLeft, BitVec.toNat_setWidth_of_le (by decide), Nat.mod_eq_of_lt hlt]

/-- R10: `be32` as a number. -/
theorem toNat_be32 (b0 b1 b2 b3 : Byte) :
    (be32 b0 b1 b2 b3).toNat = b0.toNat * 2 ^ 24 + b1.toNat * 2 ^ 16 + b2.toNat * 2 ^ 8 + b3.toNat := by
  rw [be32, BitVec.toNat_or, BitVec.toNat_or, BitVec.toNat_or, toNat_byteField b0 (by decide),
    toNat_byteField b1 (by decide), toNat_byteField b2 (by decide), BitVec.toNat_setWidth_of_le (by decide),
    shiftLeft_or_shiftLeft_of_lt b1.isLt 16, shiftLeft_or_shiftLeft_of_lt b2.isLt 8,
    ← Nat.shiftLeft_add_eq_or_of_lt b3.isLt]
  simp only [Nat.shiftLeft_eq]
  omega

/-- R140: the offset is the low nibble of the last byte. -/
theorem truncOffset_eq (d : List Byte) : truncOffset d = (d.getD 19 0).toNat % 16 := by
  rw [truncOffset, BitVec.toNat_and]
  exact Nat.and_two_pow_sub_one_eq_mod _ 4

/-- R140: the mask takes the top bit of the first byte. -/
theorem toNat_and_0x7F (b : Byte) : (b &&& 0x7F).toNat = b.toNat % 128 := by
  rw [BitVec.toNat_and]
  exact Nat.and_two_pow_sub_one_eq_mod _ 7

/-- R140: the truncated value is the four bytes from the offset, big-endian, modulo 2^31. -/
theorem toNat_dynTrunc (d : List Byte) {off : Nat} (h : truncOffset d = off) :
    (dynTrunc d).toNat =
      ((d.getD off 0).toNat * 2 ^ 24 + (d.getD (off + 1) 0).toNat * 2 ^ 16 + (d.getD (off + 2) 0).toNat * 2 ^ 8 +
        (d.getD (off + 3) 0).toNat) % 2 ^ 31 := by
  have hword : truncWord d = be32 (d.getD off 0 &&& 0x7F) (d.getD (off + 1) 0) (d.getD (off + 2) 0)
      (d.getD (off + 3) 0) := by
    subst h; rfl
  rw [dynTrunc, BitVec.toNat_setWidth, hword, toNat_be32, toNat_and_0x7F]
  omega

/-- Settles O38: a nibble is at most 15, and the masked word is the four bytes modulo 2^31. -/
theorem truncationReadsFourBytesBigEndian : Obligations.TruncationReadsFourBytesBigEndian := by
  intro d _
  exact ⟨by omega, toNat_dynTrunc d (truncOffset_eq d)⟩

/-! ### Rendering -/

/-- The character of a decimal digit. -/
theorem toNat_digitChar (x : Nat) : (BitVec.ofNat 8 (0x30 + x % 10)).toNat = 0x30 + x % 10 :=
  Nat.mod_eq_of_lt (by omega)

/-- R145: character `i` is the digit of its place. -/
theorem getD_renderDec (v : Nat) {n i : Nat} (h : i < n) :
    (renderDec v n).getD i 0 = BitVec.ofNat 8 (0x30 + v / 10 ^ (n - 1 - i) % 10) := by
  have hi : i < (renderDec v n).length := by rwa [length_renderDec]
  rw [List.getD_eq_getElem _ _ hi]
  simp only [renderDec, List.getElem_map, List.getElem_range]

/-- R145: every character is a digit character. -/
theorem toNat_of_mem_renderDec {v n : Nat} {c : Byte} (h : c ∈ renderDec v n) : 0x30 ≤ c.toNat ∧ c.toNat ≤ 0x39 := by
  obtain ⟨i, -, rfl⟩ := List.mem_map.1 h
  rw [toNat_digitChar]
  omega

/-- Settles O40: a digit below 10 keeps its character below 0x3A, so no byte wraps. -/
theorem renderingIsExactlyNDigits : Obligations.RenderingIsExactlyNDigits := by
  intro v n
  refine ⟨length_renderDec v n, fun i hi => ?_, fun c => toNat_of_mem_renderDec⟩
  rw [getD_renderDec v hi, toNat_digitChar]

/-! ### What `TRUNC` and `FMT` leave unchanged -/

/-- R142: `DIGEST`, `DVALID` and everything upstream, and every byte outside `CODE`, are kept. -/
structure DigestKept (s t : State) : Prop where
  dvalid : t.status.dvalid = s.status.dvalid
  key : SameKey s t
  inputs : SameInputs s t
  control : SameControl s t
  bytes : SameBytesOutside s t [.code]

/-- R146: `TRUNC`, `TVALID` and everything upstream, and every byte outside `CODE`, are kept. -/
structure TruncKept (s t : State) : Prop extends DigestKept s t where
  tvalid : t.status.tvalid = s.status.tvalid
  trunc : t.trunc = s.trunc

theorem SameBytesOutside.trans {s t u : State} {bs : List Buffer} (hp : t.params = s.params)
    (h : SameBytesOutside s t bs) (h' : SameBytesOutside t u bs) : SameBytesOutside s u bs :=
  fun a ha => (h' a (hp ▸ ha)).trans (h a ha)

theorem DigestKept.trans {s t u : State} (h : DigestKept s t) (h' : DigestKept t u) : DigestKept s u where
  dvalid := h'.dvalid.trans h.dvalid
  key := ⟨h'.key.keyvalid.trans h.key.keyvalid, h'.key.keylen.trans h.key.keylen⟩
  inputs := ⟨h'.inputs.cfg.trans h.inputs.cfg, h'.inputs.txtlen.trans h.inputs.txtlen,
    h'.inputs.ctrHi.trans h.inputs.ctrHi, h'.inputs.ctrLo.trans h.inputs.ctrLo⟩
  control := h.control.trans h'.control
  bytes := SameBytesOutside.trans h.control.params h.bytes h'.bytes

theorem TruncKept.trans {s t u : State} (h : TruncKept s t) (h' : TruncKept t u) : TruncKept s u where
  toDigestKept := h.toDigestKept.trans h'.toDigestKept
  tvalid := h'.tvalid.trans h.tvalid
  trunc := h'.trunc.trans h.trunc

/-- R15: a completion touches `BUSY` and `DONE` only. -/
theorem truncKept_completeOk (u : State) : TruncKept u u.completeOk :=
  ⟨⟨rfl, ⟨rfl, rfl⟩, ⟨rfl, rfl, rfl, rfl⟩, ⟨rfl, rfl, rfl, rfl, rfl⟩, fun _ _ => rfl⟩, rfl, rfl⟩

/-- R201: the entry of a fault touches `BUSY`, `ERR` and `ERRINFO` only. -/
theorem truncKept_enterFault (u : State) (r : Raise) : TruncKept u (u.enterFault r) :=
  ⟨⟨rfl, ⟨rfl, rfl⟩, ⟨rfl, rfl, rfl, rfl⟩, ⟨rfl, rfl, rfl, rfl, rfl⟩, fun _ _ => rfl⟩, rfl, rfl⟩

theorem CodeCleared.completeOk {u : State} (h : CodeCleared u) : CodeCleared u.completeOk :=
  ⟨h.cvalid, h.codeval, h.codelen, h.cells⟩

theorem CodeCleared.enterFault {u : State} (h : CodeCleared u) (r : Raise) : CodeCleared (u.enterFault r) :=
  ⟨h.cvalid, h.codeval, h.codelen, h.cells⟩

theorem CodeHolds.completeOk {u : State} {v n : Nat} (h : CodeHolds u v n) : CodeHolds u.completeOk v n :=
  ⟨h.cvalid, h.codelen, h.codeval, h.bytes, h.tail⟩

/-! ### The invalidations -/

/-- R39: invalidating `CODE`. -/
theorem codeCleared_invalidateCode (s : State) : CodeCleared s.invalidateCode := by
  refine ⟨rfl, rfl, rfl, fun i hi => ?_⟩
  rw [State.cell, State.readByte_invalidateCode, if_pos ⟨Nat.le_add_right .., Nat.add_lt_add_left hi _⟩]

theorem truncKept_invalidateCode (s : State) : TruncKept s s.invalidateCode where
  dvalid := rfl
  key := ⟨rfl, rfl⟩
  inputs := ⟨rfl, rfl, rfl, rfl⟩
  control := ⟨rfl, rfl, rfl, rfl, rfl⟩
  bytes a ha := by rw [State.readByte_invalidateCode, if_neg (ha .code (by simp))]
  tvalid := rfl
  trunc := rfl

/-- R39: invalidating `TRUNC` invalidates `CODE` and writes `TRUNC` and `TVALID` besides. -/
theorem codeCleared_invalidateTrunc (s : State) : CodeCleared s.invalidateTrunc :=
  have h := codeCleared_invalidateCode s
  ⟨h.cvalid, h.codeval, h.codelen, h.cells⟩

theorem digestKept_invalidateTrunc (s : State) : DigestKept s s.invalidateTrunc where
  dvalid := rfl
  key := ⟨rfl, rfl⟩
  inputs := ⟨rfl, rfl, rfl, rfl⟩
  control := ⟨rfl, rfl, rfl, rfl, rfl⟩
  bytes := (truncKept_invalidateCode s).bytes

/-! ### `TRUNC` -/

/-- R142, the last lines of the rule: the number to `TRUNC`, `TVALID <- 1`. -/
def State.acceptTrunc (u : State) (p : BitVec 31) : State :=
  { u with trunc := p, status := { u.status with tvalid := true } }

/-- R142: `acceptTrunc` is how the body of `TRUNC` ends with a valid digest. -/
theorem truncBody_acceptTrunc {s : State} (h : s.status.dvalid = true) :
    truncBody s = .ended (s.invalidateTrunc.acceptTrunc (dynTrunc s.digestBytes)) :=
  truncBody_digest h

theorem digestKept_acceptTrunc (u : State) (p : BitVec 31) : DigestKept u (u.acceptTrunc p) :=
  ⟨rfl, ⟨rfl, rfl⟩, ⟨rfl, rfl, rfl, rfl⟩, ⟨rfl, rfl, rfl, rfl, rfl⟩, fun _ _ => rfl⟩

theorem CodeCleared.acceptTrunc {u : State} (h : CodeCleared u) (p : BitVec 31) : CodeCleared (u.acceptTrunc p) :=
  ⟨h.cvalid, h.codeval, h.codelen, h.cells⟩

theorem exec_trunc_digest {s : State} (h : s.status.dvalid = true) :
    exec .trunc s = .next (s.invalidateTrunc.acceptTrunc (dynTrunc s.digestBytes)).completeOk := by
  rw [exec_trunc, truncBody_acceptTrunc h, Body.finish_ended]

theorem exec_trunc_noDigest {s : State} (h : s.status.dvalid = false) :
    exec .trunc s = .next (s.invalidateTrunc.enterFault (.plain .eSeq)) := by
  rw [exec_trunc, truncBody_noDigest h, Body.finish_raised]

/-- Settles O39: the body accepts the truncation over the invalidated `TRUNC`, or raises right after the
invalidation. -/
theorem truncFollowsItsRule : Obligations.TruncFollowsItsRule := by
  intro s
  have hkept := digestKept_invalidateTrunc s
  have hcleared := codeCleared_invalidateTrunc s
  refine ⟨fun hd => ?accepted, fun hd => ?noDigest⟩
  case accepted =>
    obtain ⟨hdvalid, hkey, hinputs, hcontrol, hbytes⟩ :=
      (hkept.trans (digestKept_acceptTrunc _ (dynTrunc s.digestBytes))).trans (truncKept_completeOk _).toDigestKept
    exact ⟨_, exec_trunc_digest hd, ⟨rfl, rfl, rfl, rfl⟩, ⟨rfl, rfl⟩, (hcleared.acceptTrunc _).completeOk,
      hdvalid.trans hd, hkey, hinputs, hcontrol, hbytes⟩
  case noDigest =>
    obtain ⟨hdvalid, hkey, hinputs, hcontrol, hbytes⟩ :=
      hkept.trans (truncKept_enterFault _ (.plain .eSeq)).toDigestKept
    exact ⟨_, exec_trunc_noDigest hd, ⟨rfl, rfl, rfl, rfl⟩, ⟨rfl, rfl⟩, hcleared.enterFault _, hdvalid.trans hd, hkey,
      hinputs, hcontrol, hbytes⟩

/-! ### `FMT` -/

/-- R146, the last lines of the rule: the characters to `CODE`, the number and its digit count to `CODEVAL` and
`CODELEN`, `CVALID <- 1`. -/
def State.acceptCode (u : State) (v n : Nat) : State :=
  { u.storeBuffer .code (renderDec v n) with
    codeval := BitVec.ofNat 31 v, codelen := BitVec.ofNat 4 n, status := { u.status with cvalid := true } }

/-- R146: `acceptCode` is how the body of `FMT` ends with a valid `TRUNC` and a legal digit count. -/
theorem fmtBody_acceptCode {s : State} (h : s.status.tvalid = true) (h1 : 1 ≤ s.cfg.digits.toNat)
    (h2 : s.cfg.digits.toNat ≤ 10) :
    fmtBody s = .ended (s.invalidateCode.acceptCode (reduceCode s.trunc s.cfg.digits.toNat) s.cfg.digits.toNat) :=
  fmtBody_ok h h1 h2

theorem State.readByte_acceptCode (u : State) (v n a : Nat) :
    (u.acceptCode v n).readByte a =
      if 0x60 ≤ a ∧ a < 0x60 + n then (renderDec v n).getD (a - 0x60) 0 else u.readByte a := by
  have h := u.readByte_storeBuffer .code (renderDec v n) a
  rwa [length_renderDec, Buffer.base_code] at h

/-- A code of at most ten characters stays inside `CODE`. -/
theorem truncKept_acceptCode (u : State) (v : Nat) {n : Nat} (hn : n ≤ 10) : TruncKept u (u.acceptCode v n) where
  dvalid := rfl
  key := ⟨rfl, rfl⟩
  inputs := ⟨rfl, rfl, rfl, rfl⟩
  control := ⟨rfl, rfl, rfl, rfl, rfl⟩
  bytes a ha := by
    have hout : ¬InBuffer u.params .code a := ha .code (by simp)
    simp only [InBuffer, Buffer.base_code, Buffer.size_code] at hout
    rw [State.readByte_acceptCode, if_neg (by omega)]
  tvalid := rfl
  trunc := rfl

/-- R32, R33, R38: the accepted code over a cleared `CODE`; number and digit count fit their registers. -/
theorem codeHolds_acceptCode {u : State} (hu : CodeCleared u) {v n : Nat} (hv : v < 2 ^ 31) (hn : n ≤ 10) :
    CodeHolds (u.acceptCode v n) v n where
  cvalid := rfl
  codelen := Nat.mod_eq_of_lt (by omega)
  codeval := Nat.mod_eq_of_lt hv
  bytes := by
    have h := u.slice_storeBuffer .code (renderDec v n)
    rwa [length_renderDec] at h
  tail i hni hi := by
    rw [State.cell, State.readByte_acceptCode, if_neg (by rw [Buffer.base_code]; omega)]
    exact hu.cells i hi

/-- R144: the reduced number is no larger than `TRUNC`. -/
theorem reduceCode_lt (p : BitVec 31) (n : Nat) : reduceCode p n < 2 ^ 31 :=
  Nat.lt_of_le_of_lt (Nat.mod_le ..) p.isLt

theorem exec_fmt_ok {s : State} (h : s.status.tvalid = true) (h1 : 1 ≤ s.cfg.digits.toNat)
    (h2 : s.cfg.digits.toNat ≤ 10) :
    exec .fmt s = .next
      (s.invalidateCode.acceptCode (reduceCode s.trunc s.cfg.digits.toNat) s.cfg.digits.toNat).completeOk := by
  rw [exec_fmt, fmtBody_acceptCode h h1 h2, Body.finish_ended]

theorem exec_fmt_raised {s u : State} {r : Raise} (h : fmtBody s = .raised u r) :
    exec .fmt s = .next (u.enterFault r) := by
  rw [exec_fmt, h, Body.finish_raised]

/-- Settles O42: the body accepts the reduced number over the invalidated code, or raises right after the
invalidation. -/
theorem fmtFollowsItsRule : Obligations.FmtFollowsItsRule := by
  intro s
  have hkept := truncKept_invalidateCode s
  have hcleared := codeCleared_invalidateCode s
  refine ⟨fun ht h1 h2 => ?accepted, fun code hfault => ?faulted⟩
  case accepted =>
    have hcode := codeHolds_acceptCode hcleared (reduceCode_lt s.trunc s.cfg.digits.toNat) h2
    obtain ⟨⟨hdvalid, hkey, hinputs, hcontrol, hbytes⟩, htvalid, htrunc⟩ :=
      (hkept.trans (truncKept_acceptCode _ _ h2)).trans (truncKept_completeOk _)
    exact ⟨_, exec_fmt_ok ht h1 h2, ⟨rfl, rfl, rfl, rfl⟩, hcode.completeOk, htvalid.trans ht, hdvalid, htrunc, hkey,
      hinputs, hcontrol, hbytes⟩
  case faulted =>
    have hraise : ∃ c : FaultCode, c.number = code ∧ fmtBody s = .raised s.invalidateCode (.plain c) := by
      rcases hfault with ⟨ht, rfl⟩ | ⟨ht, hdigits, rfl⟩
      · exact ⟨.eSeq, rfl, fmtBody_noTrunc ht⟩
      · exact ⟨.eDigits, rfl, fmtBody_digits ht hdigits⟩
    obtain ⟨c, rfl, hbody⟩ := hraise
    obtain ⟨⟨hdvalid, hkey, hinputs, hcontrol, hbytes⟩, htvalid, htrunc⟩ :=
      hkept.trans (truncKept_enterFault _ (.plain c))
    exact ⟨_, exec_fmt_raised hbody, ⟨rfl, rfl, rfl, rfl⟩, hcleared.enterFault _, htvalid, hdvalid, htrunc, hkey,
      hinputs, hcontrol, hbytes⟩

end Sys2Proof.Machine
end

section
/-! Family 43_hotp_control: the rule of `HOTP` (R161). With a key it ends as `FMT` does from the state the `HMAC` and
`TRUNC` stages leave; without one it ends as `HMAC` does. -/

namespace Sys2Proof.Machine

/-! ### What the stages leave -/

/-- R161: the key, the inputs and every byte outside `DIGEST` and `CODE` are kept. -/
structure KeyKept (s t : State) : Prop where
  key : SameKey s t
  inputs : SameInputs s t
  control : SameControl s t
  bytes : SameBytesOutside s t [.digest, .code]

/-- R161: the `HMAC` and `TRUNC` stages have run, and `DIGEST` and `TRUNC` hold the digest `d` and its truncation. -/
structure Truncated (s t : State) (d : List Byte) : Prop extends KeyKept s t where
  digest : DigestHolds t d
  trunc : TruncHolds t (dynTrunc d).toNat

theorem DigestReplaced.keyKept {s t : State} (h : DigestReplaced s t) : KeyKept s t :=
  ⟨h.key, h.inputs, h.control, h.bytes⟩

/-- The stages after `HMAC` keep what `HMAC` kept. -/
theorem KeyKept.trans_digestKept {s t u : State} (h : KeyKept s t) (h' : DigestKept t u) : KeyKept s u where
  key := ⟨h'.key.keyvalid.trans h.key.keyvalid, h'.key.keylen.trans h.key.keylen⟩
  inputs := ⟨h'.inputs.cfg.trans h.inputs.cfg, h'.inputs.txtlen.trans h.inputs.txtlen,
    h'.inputs.ctrHi.trans h.inputs.ctrHi, h'.inputs.ctrLo.trans h.inputs.ctrLo⟩
  control := h.control.trans h'.control
  bytes := SameBytesOutside.trans h.control.params h.bytes fun a ha => h'.bytes a fun b hb =>
    ha b (List.mem_cons_of_mem _ hb)

/-- `DIGEST` is outside `CODE`, so the stages after `HMAC` keep the digest. -/
theorem DigestHolds.of_digestKept {t u : State} {d : List Byte} (h : DigestHolds t d) (hk : DigestKept t u) :
    DigestHolds u d where
  dvalid := hk.dvalid.trans h.dvalid
  bytes := by
    have hslice : u.digestBytes = t.digestBytes := State.slice_congr fun i hi => hk.bytes _ fun b hb => by
      have hi20 : i < 20 := hi
      obtain rfl := List.mem_singleton.1 hb
      simp only [InBuffer, Buffer.base_digest, Buffer.base_code, Buffer.size_code]
      omega
    exact hslice.trans h.bytes

/-- The `FMT` stage keeps what the two stages before it left. -/
theorem Truncated.of_truncKept {s t u : State} {d : List Byte} (h : Truncated s t d) (hk : TruncKept t u) :
    Truncated s u d where
  toKeyKept := h.toKeyKept.trans_digestKept hk.toDigestKept
  digest := h.digest.of_digestKept hk.toDigestKept
  trunc := ⟨hk.tvalid.trans h.trunc.tvalid, (congrArg BitVec.toNat hk.trunc).trans h.trunc.trunc⟩

/-! ### `HOTP`, stage by stage -/

/-- R161: the state between the `TRUNC` and the `FMT` stage, for the digest `d`. -/
def State.hotpTruncate (s : State) (d : List Byte) : State :=
  (s.invalidateDigest.acceptDigest d).invalidateTrunc.acceptTrunc (dynTrunc d)

@[simp] theorem State.hotpTruncate_status (s : State) (d : List Byte) :
    (s.hotpTruncate d).status = { s.status with dvalid := true, tvalid := true, cvalid := false } := by
  simp [State.hotpTruncate, State.acceptTrunc, State.acceptDigest]

@[simp] theorem State.hotpTruncate_cfg (s : State) (d : List Byte) : (s.hotpTruncate d).cfg = s.cfg := by
  simp [State.hotpTruncate, State.acceptTrunc, State.acceptDigest]

@[simp] theorem State.hotpTruncate_errinfo (s : State) (d : List Byte) : (s.hotpTruncate d).errinfo = s.errinfo := by
  simp [State.hotpTruncate, State.acceptTrunc, State.acceptDigest]

@[simp] theorem State.hotpTruncate_trunc (s : State) (d : List Byte) : (s.hotpTruncate d).trunc = dynTrunc d := rfl

/-- The stages before `FMT` touch neither the report flags nor `ERRINFO`. -/
theorem Completed.of_hotpTruncate {s t : State} {d : List Byte} (h : Completed (s.hotpTruncate d) t) : Completed s t :=
  ⟨h.busy, h.done, by simpa using h.err, by simpa using h.errinfo⟩

theorem Faulted.of_hotpTruncate {s t : State} {d : List Byte} {code : BitVec 4} {chr : Byte} {pos : BitVec 16}
    (h : Faulted (s.hotpTruncate d) t code chr pos) : Faulted s t code chr pos :=
  ⟨h.busy, h.err, by simpa using h.done, h.errinfo⟩

theorem truncated_hotpTruncate (s : State) {d : List Byte} (hd : d.length = 20) : Truncated s (s.hotpTruncate d) d :=
  have hkept : DigestKept (s.invalidateDigest.acceptDigest d) (s.hotpTruncate d) :=
    (digestKept_invalidateTrunc _).trans (digestKept_acceptTrunc _ _)
  { toKeyKept := ((digestReplaced_invalidateDigest s).acceptDigest hd).keyKept.trans_digestKept hkept
    digest := (digestHolds_acceptDigest _ hd).of_digestKept hkept
    trunc := ⟨rfl, rfl⟩ }

/-- R161: the `TRUNC` stage reads the digest the `HMAC` stage has just accepted, so it cannot fault. -/
theorem truncBody_acceptDigest (u : State) {d : List Byte} (hd : d.length = 20) :
    truncBody (u.acceptDigest d) = .ended ((u.acceptDigest d).invalidateTrunc.acceptTrunc (dynTrunc d)) := by
  obtain ⟨hdvalid, hbytes⟩ := digestHolds_acceptDigest u hd
  rw [truncBody_acceptTrunc hdvalid, hbytes]

/-- R161: with a key only the `FMT` stage is left to decide the outcome. -/
theorem exec_hotp_key {s : State} (h : s.status.keyvalid = true) :
    exec .hotp s = exec .fmt (s.hotpTruncate (hmacSha1 s.keyBytes (bytesOfCounter (s.ctrHi ++ s.ctrLo)))) := by
  rw [exec_hotp, hotpBody, hmacBody_acceptDigest h, Body.ended_andThen,
    truncBody_acceptDigest _ (length_hmacSha1 ..), Body.ended_andThen, exec_fmt, State.hotpTruncate]

/-- R161: without a key the command stops with the fault of its `HMAC` stage. -/
theorem exec_hotp_noKey {s : State} (h : s.status.keyvalid = false) : exec .hotp s = exec .hmac s := by
  rw [exec_hotp, hotpBody_noKey h, exec_hmac, hmacBody_noKey h]

/-- Settles O43: with a key the outcome is that of `FMT` (O42) from the state of the two stages before it, without one
it is that of `HMAC` (O36). -/
theorem hotpFollowsItsRule : Obligations.HotpFollowsItsRule := by
  intro s d p hd hp
  subst hp
  have hlen : d.length = 20 := hd ▸ length_hmacSha1 ..
  have hexec (hkey : s.status.keyvalid = true) : exec .hotp s = exec .fmt (s.hotpTruncate d) := hd ▸ exec_hotp_key hkey
  have hstages := truncated_hotpTruncate s hlen
  have htvalid : (s.hotpTruncate d).status.tvalid = true := hstages.trunc.tvalid
  obtain ⟨hrenders, hfaults⟩ := fmtFollowsItsRule (s.hotpTruncate d)
  rw [State.hotpTruncate_cfg] at hrenders hfaults
  refine ⟨fun hkey h1 h10 => ?renders, fun hkey hdigits => ?badDigits, fun hkey => ?noKey⟩
  case renders =>
    obtain ⟨t, hfmt, hcompleted, hcode, ht, hd', hp', hk, hi, hc, hb⟩ := hrenders htvalid h1 h10
    have hkept : TruncKept (s.hotpTruncate d) t := ⟨⟨hd', hk, hi, hc, hb⟩, ht.trans htvalid.symm, hp'⟩
    obtain ⟨⟨hsame, hinputs, hcontrol, hbytes⟩, hdigest, htrunc⟩ := hstages.of_truncKept hkept
    rw [State.hotpTruncate_trunc] at hcode
    have hslice : t.slice .code s.cfg.digits.toNat = hotpCode s.keyBytes (s.ctrHi ++ s.ctrLo) s.cfg.digits.toNat := by
      rw [hotpCode, ← hd, reduceCode, hcode.bytes]
    exact ⟨t, (hexec hkey).trans hfmt, hcompleted.of_hotpTruncate, hdigest, htrunc, hcode, hslice, hsame, hinputs,
      hcontrol, hbytes⟩
  case badDigits =>
    obtain ⟨t, hfmt, hfaulted, hcode, ht, hd', hp', hk, hi, hc, hb⟩ := hfaults 6 (.inr ⟨htvalid, hdigits, rfl⟩)
    have hkept : TruncKept (s.hotpTruncate d) t := ⟨⟨hd', hk, hi, hc, hb⟩, ht, hp'⟩
    obtain ⟨⟨hsame, hinputs, hcontrol, hbytes⟩, hdigest, htrunc⟩ := hstages.of_truncKept hkept
    exact ⟨t, (hexec hkey).trans hfmt, hfaulted.of_hotpTruncate, hdigest, htrunc, hcode, hsame, hinputs, hcontrol,
      hbytes⟩
  case noKey =>
    rw [exec_hotp_noKey hkey]
    exact (hmacFollowsItsRule s).2 hkey

end Sys2Proof.Machine
end

section
/-! Family 45_host_sequences: the seconds to the next boundary (R180), bounded, and the full step exactly on a boundary. -/

namespace Sys2Proof.Driver

theorem one_le_secondsRemaining {n : Nat} (hn : 0 < n) (x : Int) : 1 ≤ secondsRemaining n x := by
  have hmod : x % n < n := Int.emod_lt_of_pos x (Int.natCast_pos.mpr hn)
  unfold secondsRemaining
  omega

theorem secondsRemaining_le {n : Nat} (hn : 0 < n) (x : Int) : secondsRemaining n x ≤ n :=
  Int.sub_le_self _ (Int.emod_nonneg x (Int.natCast_ne_zero.mpr hn.ne'))

theorem secondsRemaining_eq_step_iff (n : Nat) (x : Int) : secondsRemaining n x = n ↔ x % n = 0 :=
  sub_eq_self

/-- Settles O51: the remainder of a division by a positive step is at least 0 and below the step. -/
theorem secondsRemainingIsInRange : Obligations.SecondsRemainingIsInRange := fun n x hn =>
  ⟨one_le_secondsRemaining hn x, secondsRemaining_le hn x, secondsRemaining_eq_step_iff n x, rfl⟩

end Sys2Proof.Driver
end

section
/-! Family 60_exceptions: the completion of an illegal word (R198) and what lowers `irq` (R206). -/

namespace Sys2Proof.Machine

/-- Settles O8: the step is the `E_CMD` completion, which writes `BUSY`, `ERR` and `ERRINFO` alone. -/
theorem illegalWordCompletesWithECmd : Obligations.IllegalWordCompletesWithECmd :=
  fun _ _ hc hb hw => ⟨_, step_illegalWord hc hb hw, rfl⟩

/-! ### The interrupt line -/

/-- R42, R205: the three conditions each of which alone keeps `irq` low. -/
theorem irq_eq_false_iff (s : State) :
    s.irq = false ↔ s.cfg.ie = false ∨ s.status.busy = true ∨ (s.status.done = false ∧ s.status.err = false) := by
  rw [State.irq, Bool.and_eq_false_iff, Bool.and_eq_false_iff, Bool.or_eq_false_iff, Bool.not_eq_false', or_assoc]

/-- R42: the answer port is no input of `irq`. -/
theorem irq_reply (s : State) (a : Option Reply) : ({ s with reply := a } : State).irq = s.irq := rfl

theorem Status.writeOneToClear_done {f : Status} {v : Word} (h : f.done = true → v.getLsbD 1 = true) :
    (f.writeOneToClear v).done = false :=
  Bool.and_eq_false_imp.2 fun hd => by rw [h hd]; rfl

theorem Status.writeOneToClear_err {f : Status} {v : Word} (h : f.err = true → v.getLsbD 2 = true) :
    (f.writeOneToClear v).err = false :=
  Bool.and_eq_false_imp.2 fun he => by rw [h he]; rfl

/-- R206: a write to `STATUS` with 1 to whichever of `DONE`, `ERR` is set leaves neither set. -/
theorem irq_writeStatus {s : State} {v : Word} (hb : s.status.busy = false)
    (hdone : s.status.done = true → v.getLsbD 1 = true) (herr : s.status.err = true → v.getLsbD 2 = true) :
    (s.transact (.write 0x0004 (.word v))).irq = false := by
  have hwrite : s.transact (.write 0x0004 (.word v)) = { s.acknowledge v with reply := some (.write .okay) } :=
    transact_writeReg hb .status v
  rw [hwrite, irq_reply, irq_eq_false_iff]
  exact .inr (.inr ⟨Status.writeOneToClear_done hdone, Status.writeOneToClear_err herr⟩)

/-- R206: an issue opens a busy window. -/
theorem irq_writeCmd {s : State} (hb : s.status.busy = false) (v : Word) :
    (s.transact (.write 0x0000 (.word v))).irq = false := by
  rw [transact_writeCmd hb, irq_reply, irq_eq_false_iff]
  exact .inr (.inl rfl)

/-- R206: a write to `CFG` with bit 8 = 0 clears `CFG.IE`. -/
theorem irq_writeCfg {s : State} {v : Word} (hb : s.status.busy = false) (hie : v.getLsbD 8 = false) :
    (s.transact (.write 0x0008 (.word v))).irq = false := by
  have hwrite : s.transact (.write 0x0008 (.word v)) =
      { s with cfg := Cfg.ofWord v, reply := some (.write .okay) } := transact_writeReg hb .cfg v
  rw [hwrite, irq_eq_false_iff]
  exact .inl hie

/-- R206, R43: hard reset clears `CFG.IE`. -/
theorem irq_hardReset (s : State) : s.hardReset.irq = false :=
  (irq_eq_false_iff _).2 (.inl rfl)

/-- Settles O19: each of the four ways by the condition of `irq` it takes away; `OVR` is in none of them. -/
theorem interruptLineIsLowered : Obligations.InterruptLineIsLowered := fun s =>
  ⟨fun _ => irq_writeStatus, fun v hb => irq_writeCmd hb v, fun _ => irq_writeCfg, irq_hardReset s, fun _ => rfl⟩

end Sys2Proof.Machine
end

section
/-! Family 70_reset_and_hazards: what ends a busy window (R222). -/

namespace Sys2Proof.Machine

/-- R15, R222: a busy window ends by a hard reset or by a completion, which leaves its flag: a transaction leaves the
block busy, and the idle core's turn needs an idle one. -/
theorem step_ends_busy {s t : State} (hb : s.status.busy = true) (h : step s = .next t)
    (hidle : t.status.busy = false) :
    (∃ es, s.schedule = .hardReset :: es) ∨ (t.status.done || t.status.err) = true := by
  cases step_inv h with
  | bus es x _ ht =>
    have hbusy : t.status.busy = true := by rw [ht]; exact transact_busy (s := { s with schedule := es }) hb x
    rw [hidle] at hbusy; cases hbusy
  | reset es hs _ => exact .inl ⟨es, hs⟩
  | idle es _ hb' _ => rw [hb] at hb'; cases hb'
  | complete es i _ _ _ ht => exact .inr (exec_over ht).2
  | illegal es r _ _ _ ht => rw [ht]; exact .inr (Bool.or_true _)

/-- Settles O5: a scheduled hard reset is the whole step, and `step_ends_busy` says what else ends the window. -/
theorem hardResetAbandonsTheCommand : Obligations.HardResetAbandonsTheCommand :=
  ⟨fun _ _ hs => ⟨_, step_hardReset hs, rfl⟩, fun _ _ => step_ends_busy⟩

end Sys2Proof.Machine
end

section
/-! Family 40_base32, the round trip (section 4): the decoder's loop read as a queue of bits. Its pending bits and the
bits of the characters still to come stand in one sequence, and every full eight bits of it are a byte. -/

namespace Sys2Proof.Machine

/-! ### Bit sequences as numbers -/

/-- The number a bit sequence writes, most significant bit first. -/
def bitsVal : List Bool → Nat
  | [] => 0
  | b :: l => b.toNat * 2 ^ l.length + bitsVal l

theorem bitsVal_append (l r : List Bool) : bitsVal (l ++ r) = bitsVal l * 2 ^ r.length + bitsVal r := by
  induction l with
  | nil => simp [bitsVal]
  | cons b l ih =>
    rw [List.cons_append, bitsVal, bitsVal, ih, List.length_append, Nat.pow_add]
    ring

theorem bitsVal_lt (l : List Bool) : bitsVal l < 2 ^ l.length := by
  induction l with
  | nil => simp [bitsVal]
  | cons b l ih =>
    have hb : b.toNat * 2 ^ l.length ≤ 1 * 2 ^ l.length := Nat.mul_le_mul_right _ b.toNat_le
    rw [bitsVal, List.length_cons, Nat.pow_succ]
    omega

/-- The upper part of a split sequence is what a right shift by the lower part leaves. -/
theorem bitsVal_append_shiftRight (l r : List Bool) : bitsVal (l ++ r) >>> r.length = bitsVal l := by
  rw [bitsVal_append, Nat.shiftRight_eq_div_pow, Nat.mul_comm, Nat.mul_add_div (Nat.two_pow_pos _),
    Nat.div_eq_of_lt (bitsVal_lt r), Nat.add_zero]

/-- The lower part of a split sequence is what a mask of its length leaves. -/
theorem bitsVal_append_and_mask (l r : List Bool) : bitsVal (l ++ r) &&& (1 <<< r.length - 1) = bitsVal r := by
  rw [Nat.one_shiftLeft, Nat.and_two_pow_sub_one_eq_mod, bitsVal_append, Nat.mul_comm, Nat.mul_add_mod,
    Nat.mod_eq_of_lt (bitsVal_lt r)]

/-- The five bits of a character's value, most significant first. -/
def groupBits (v : BitVec 5) : List Bool :=
  [v.getLsbD 4, v.getLsbD 3, v.getLsbD 2, v.getLsbD 1, v.getLsbD 0]

@[simp] theorem length_groupBits (v : BitVec 5) : (groupBits v).length = 5 := rfl

theorem bitsVal_groupBits (v : BitVec 5) : bitsVal (groupBits v) = v.toNat := by
  revert v; decide

@[simp] theorem groupBits_groupValue (a b c d e : Bool) : groupBits (groupValue a b c d e) = [a, b, c, d, e] := by
  revert a b c d e; decide

/-- R94: shifting a character's value in behind the pending bits. -/
theorem bitsVal_append_group (p : List Bool) (v : BitVec 5) :
    bitsVal p <<< 5 ||| v.toNat = bitsVal (p ++ groupBits v) := by
  rw [bitsVal_append, bitsVal_groupBits, length_groupBits, ← Nat.shiftLeft_add_eq_or_of_lt v.isLt, Nat.shiftLeft_eq]

/-! ### The bytes of a bit sequence -/

/-- The bytes a bit sequence holds, eight bits each; fewer than eight left over are dropped. -/
def bytesOfBits : List Bool → List Byte
  | a :: b :: c :: d :: e :: f :: g :: h :: rest =>
    BitVec.ofNat 8 (bitsVal [a, b, c, d, e, f, g, h]) :: bytesOfBits rest
  | _ => []

theorem bytesOfBits_append {l : List Bool} (hl : l.length = 8) (r : List Bool) :
    bytesOfBits (l ++ r) = BitVec.ofNat 8 (bitsVal l) :: bytesOfBits r := by
  match l, hl with
  | [a, b, c, d, e, f, g, h], _ => rfl

theorem bytesOfBits_of_length_lt {l : List Bool} (hl : l.length < 8) : bytesOfBits l = [] := by
  unfold bytesOfBits
  split
  · simp only [List.length_cons] at hl; omega
  · rfl

theorem ofNat_bitsVal_byte (x : Byte) : BitVec.ofNat 8 (bitsVal [x.getLsbD 7, x.getLsbD 6, x.getLsbD 5, x.getLsbD 4,
    x.getLsbD 3, x.getLsbD 2, x.getLsbD 1, x.getLsbD 0]) = x := by
  revert x; decide

/-- The bytes come back from their bits, whatever fewer than eight bits follow. -/
theorem bytesOfBits_bitsOfBytes (b : List Byte) {r : List Bool} (hr : r.length < 8) :
    bytesOfBits (bitsOfBytes b ++ r) = b := by
  induction b with
  | nil => exact bytesOfBits_of_length_lt hr
  | cons x xs ih =>
    rw [bitsOfBytes, List.flatMap_cons, List.append_assoc, bytesOfBits_append rfl, ofNat_bitsVal_byte]
    exact congrArg (x :: ·) ih

/-! ### The decoder's loop on encoded characters -/

/-- R90, R93: a value's character has that value. -/
theorem b32Class_b32Char (v : BitVec 5) : b32Class (b32Char v) = some v := by
  revert v; decide

/-- R94: with `p` pending, the loop emits the bytes of `p` followed by the characters' bits. -/
theorem b32Loop_map_b32Char (vs : List (BitVec 5)) (i : Nat) {p : List Bool} (hp : p.length < 8) (out : List Byte) :
    b32Loop (vs.map b32Char) i (bitsVal p) p.length out = .ok (out ++ bytesOfBits (p ++ vs.flatMap groupBits)) := by
  induction vs generalizing i p out with
  | nil => simp [b32Loop, bytesOfBits_of_length_lt hp]
  | cons v vs ih =>
    rw [List.map_cons, b32Loop_cons_some (b32Class_b32Char v), bitsVal_append_group, List.flatMap_cons,
      ← List.append_assoc]
    have hlen : (p ++ groupBits v).length = p.length + 5 := by simp
    generalize p ++ groupBits v = q at hlen ⊢
    split
    case isTrue h3 =>
      obtain ⟨byte, rest, hbyte, rfl⟩ : ∃ byte rest : List Bool, byte.length = 8 ∧ q = byte ++ rest :=
        ⟨q.take 8, q.drop 8, by rw [List.length_take]; omega, (List.take_append_drop 8 q).symm⟩
      rw [List.length_append] at hlen
      have hrest : p.length - 3 = rest.length := by omega
      have hff : bitsVal byte &&& 0xFF = bitsVal byte := by
        rw [Nat.and_two_pow_sub_one_of_lt_two_pow (n := 8)]; rw [← hbyte]; exact bitsVal_lt byte
      rw [hrest, bitsVal_append_and_mask, bitsVal_append_shiftRight, hff, ih _ (by omega), List.append_assoc byte,
        bytesOfBits_append hbyte, List.append_assoc, List.singleton_append]
    case isFalse h3 => rw [← hlen, ih _ (by omega)]

/-! ### The encoder -/

/-- R102: the groups hold the bits and fewer than five zero bits behind them. -/
theorem flatMap_groupBits_b32Groups (l : List Bool) :
    ∃ r : List Bool, r.length < 5 ∧ (b32Groups l).flatMap groupBits = l ++ r := by
  induction l using b32Groups.induct with
  | case1 a b c d e rest ih =>
    obtain ⟨r, hr, h⟩ := ih
    exact ⟨r, hr, by simp [b32Groups, h]⟩
  | case2 a b c d => exact ⟨[false], by simp, by simp [b32Groups]⟩
  | case3 a b c => exact ⟨[false, false], by simp, by simp [b32Groups]⟩
  | case4 a b => exact ⟨[false, false, false], by simp, by simp [b32Groups]⟩
  | case5 a => exact ⟨[false, false, false, false], by simp, by simp [b32Groups]⟩
  | case6 => exact ⟨[], by simp, rfl⟩

theorem b32Char_ne_padChar (v : BitVec 5) : b32Char v ≠ padChar := by
  revert v; decide

theorem stripPad_map_b32Char (vs : List (BitVec 5)) : stripPad (vs.map b32Char) = vs.map b32Char := by
  induction vs with
  | nil => rfl
  | cons v vs ih => rw [List.map_cons, stripPad_cons, if_neg fun h => b32Char_ne_padChar v h.2, ih]

/-- Settles O28: the strip leaves the encoded characters, their bits are those of the bytes and fewer than five more. -/
theorem encodingThenDecodingGivesTheBytesBack : Obligations.EncodingThenDecodingGivesTheBytesBack := by
  intro b
  obtain ⟨r, hr, hbits⟩ := flatMap_groupBits_b32Groups (bitsOfBytes b)
  have hstrip : stripPad (b32Encode b) = (b32Groups (bitsOfBytes b)).map b32Char :=
    (stripPad_append_replicate ..).trans (stripPad_map_b32Char _)
  have hloop := b32Loop_map_b32Char (b32Groups (bitsOfBytes b)) 0 (p := []) (by simp) []
  rw [b32Decode, hstrip]
  rw [hbits, List.nil_append, List.nil_append, bytesOfBits_bitsOfBytes b (by omega)] at hloop
  exact hloop

end Sys2Proof.Machine
end

section
/-! Host transactions on the whole state: everything a transaction can do, by case (R55, R56), and what follows for the
results (R226), the text buffer, the fault report (R203) and `STATUS` (R24). -/

namespace Sys2Proof.Machine

/-! ### The inversion of a transaction -/

/-- What a transaction `x` from `s` to `t` did to the block; each case leaves the reply besides. -/
inductive TransactCase (s : State) (x : Transaction) (t : State) : Prop where
  /-- A read, or a write that is refused or meets a read-only location. -/
  | answer (r : Option Reply) (ht : t = { s with reply := r })
  /-- A write dropped in the busy window. -/
  | overrun (r : Option Reply) (hb : s.status.busy = true) (ht : t = { s.dropWrite with reply := r })
  /-- A command issue. -/
  | issue (v : Word) (r : Option Reply) (hb : s.status.busy = false) (ht : t = { s.issue v with reply := r })
  /-- A write of `STATUS`. -/
  | acknowledge (v : Word) (r : Option Reply) (hb : s.status.busy = false) (hx : x = .write 0x0004 (.word v))
      (ht : t = { s.acknowledge v with reply := r })
  /-- A write of an input register. -/
  | input (c : Cfg) (n : BitVec 16) (hi lo : Word) (r : Option Reply) (hb : s.status.busy = false)
      (ht : t = { s with cfg := c, txtlen := n, ctrHi := hi, ctrLo := lo, reply := r })
  /-- A write of a cell of `TXT`. -/
  | text (i : Nat) (v : Byte) (r : Option Reply) (hb : s.status.busy = false) (hi : i < s.params.textMax)
      (ht : t = { s.setCell .txt i v with reply := r })

/-- R55 case 5: a 4-byte write at the offset of `STATUS`. -/
theorem write_status_eq {off : BitVec 14} {data : WriteData} (ho : off.toNat = Reg.status.offset)
    (hd : data.size = .four) : Transaction.write off data = .write 0x0004 (.word data.value) := by
  have hoff : off = 0x0004 := BitVec.eq_of_toNat_eq ho
  cases data with
  | byte v | half v => cases hd
  | word v => rw [hoff, WriteData.value]

theorem transact_inv (s : State) (x : Transaction) : TransactCase s x (s.transact x) := by
  rcases transact_cases s x with ⟨r, h⟩ | ⟨hb, r, h⟩ | ⟨hb, off, data, loc, hx, hl, hro, h⟩
  · exact .answer r h
  · exact .overrun r hb h
  · rcases locate_inv hl with ⟨reg, hsize, hoff, rfl⟩ | ⟨b, hsize, hin, rfl⟩
    · cases reg with
      | cmd => exact .issue _ _ hb h
      | status => exact .acknowledge _ _ hb (hx.trans (write_status_eq hoff hsize)) h
      | cfg => exact .input _ s.txtlen s.ctrHi s.ctrLo _ hb h
      | txtlen => exact .input s.cfg _ s.ctrHi s.ctrLo _ hb h
      | ctrHi => exact .input s.cfg s.txtlen _ s.ctrLo _ hb h
      | ctrLo => exact .input s.cfg s.txtlen s.ctrHi _ _ hb h
      | keylen | errinfo | trunc | codeval | codelen | param => cases hro
    · cases b with
      | txt => exact .text _ _ _ hb (by simp only [InBuffer, Buffer.base_txt, Buffer.size_txt] at hin ⊢; omega) h
      | digest | code | key => cases hro

/-! ### The key and the results -/

/-- R226: the key, the results and their flags are kept, and every byte outside `TXT`. -/
structure ResultsKept (s t : State) : Prop where
  params : t.params = s.params
  key : SameKey s t
  dvalid : t.status.dvalid = s.status.dvalid
  tvalid : t.status.tvalid = s.status.tvalid
  cvalid : t.status.cvalid = s.status.cvalid
  trunc : t.trunc = s.trunc
  codeval : t.codeval = s.codeval
  codelen : t.codelen = s.codelen
  bytes : SameBytesOutside s t [.txt]

/-- A write of a cell of `TXT` changes no other byte. -/
theorem State.readByte_setCell_ne (s : State) {b : Buffer} {i a : Nat} (v : Byte) (h : a ≠ b.base + i) :
    (s.setCell b i v).readByte a = s.readByte a := by
  rw [State.readByte_setCell, if_neg h]

theorem resultsKept_transact (s : State) (x : Transaction) : ResultsKept s (s.transact x) := by
  cases transact_inv s x with
  | answer r ht | overrun r _ ht | issue v r _ ht | acknowledge v r _ _ ht | input c n hi lo r _ ht =>
    rw [ht]
    exact ⟨rfl, ⟨rfl, rfl⟩, rfl, rfl, rfl, rfl, rfl, rfl, fun _ _ => rfl⟩
  | text i v r _ hi ht =>
    rw [ht]
    refine ⟨rfl, ⟨rfl, rfl⟩, rfl, rfl, rfl, rfl, rfl, rfl, fun a ha => s.readByte_setCell_ne v ?_⟩
    rintro rfl
    exact ha .txt (by simp) ⟨Nat.le_add_right .., Nat.add_lt_add_left hi _⟩

/-- Settles O48: by the cases of a transaction, of which only the write of a `TXT` cell touches a byte. -/
theorem hostTransactionsKeepResults : Obligations.HostTransactionsKeepResults := by
  intro s x t _ ht
  obtain ⟨-, hkey, hd, ht', hc, htrunc, hval, hlen, hbytes⟩ := resultsKept_transact s x
  rw [ht]
  exact ⟨hkey, hd, ht', hc, htrunc, hval, hlen, hbytes⟩

/-! ### A cell of `TXT` -/

/-- R51: the transaction of one byte at cell `i` of `TXT`. -/
theorem locate_text {p : Config.Params} (hp : p.Legal) {i : Nat} (hi : i < p.textMax) :
    locate p (BitVec.ofNat 14 (0x1000 + i)).toNat .one = some (.cell .txt i) := by
  have hmax := hp.2
  have hoff : (BitVec.ofNat 14 (0x1000 + i)).toNat = 0x1000 + i := by rw [BitVec.toNat_ofNat]; omega
  have hin : InBuffer p .txt (0x1000 + i) := ⟨Nat.le_add_right .., Nat.add_lt_add_left hi _⟩
  rw [hoff, locate_one hp hin, Buffer.base_txt, Nat.add_sub_cancel_left]

/-- R56 case 4: a read of a cell of `TXT` answers its byte, busy or idle. -/
theorem transact_readText {s : State} (hp : s.params.Legal) {i : Nat} (hi : i < s.params.textMax) :
    (s.transact (.read (BitVec.ofNat 14 (0x1000 + i)) .one)).reply =
      some (.read .okay ((s.cell .txt i).setWidth 32)) := by
  rw [transact_read_located (locate_text hp hi), readValue_ungated s (by simp) rfl, State.idleValue]

/-- Settles O14: the write sets that cell alone, and its read answers the cell. -/
theorem textCellWriteStoresOneByte : Obligations.TextCellWriteStoresOneByte := by
  intro s i v t hp hb hi ht
  rw [transact_writeText hp hb hi] at ht
  have hcell : t.cell .txt i = v := by
    rw [ht]
    exact (s.readByte_setCell .txt i v _).trans (if_pos rfl)
  have hother : ∀ a, a ≠ 0x1000 + i → t.readByte a = s.readByte a := by
    rw [ht]
    exact fun a ha => s.readByte_setCell_ne v ha
  have hparams : t.params = s.params := by rw [ht]; rfl
  have hread := transact_readText (s := t) (hparams ▸ hp) (hparams ▸ hi)
  rw [hcell] at hread
  refine ⟨hcell, hother, ?_, ?_, ?_, ?_, ?_, ?_, ?_, ?_, hread⟩ <;> rw [ht]
  · rfl
  · exact ⟨rfl, rfl, rfl, rfl⟩
  · exact ⟨rfl, rfl⟩
  all_goals rfl

/-! ### The fault report and `STATUS` -/

/-- Settles O21: a write of `STATUS` acknowledges, a write of `CMD` issues. -/
theorem faultReportIsClearedInTwoWays : Obligations.FaultReportIsClearedInTwoWays := by
  intro s v hb
  have hack : s.transact (.write 0x0004 (.word v)) = { s.acknowledge v with reply := some (.write .okay) } :=
    transact_writeReg hb .status v
  refine ⟨fun hbit => ⟨?_, ?_, fun hdone => irq_writeStatus hb (by simp [hdone]) fun _ => hbit⟩, ?_⟩
  · rw [hack]
    exact Status.writeOneToClear_err fun _ => hbit
  · rw [hack]; rfl
  · rw [transact_writeCmd hb]
    exact ⟨rfl, rfl, rfl⟩

/-- R24: bit `j` of the stored flags as a register. -/
theorem Status.getLsbD_word (f : Status) {j : Nat} (hj : j < 32) : f.word.getLsbD j =
    (f.busy && decide (j = 0) || f.done && decide (j = 1) || f.err && decide (j = 2) ||
      f.keyvalid && decide (j = 3) || f.dvalid && decide (j = 4) || f.tvalid && decide (j = 5) ||
      f.cvalid && decide (j = 6) || f.ovr && decide (j = 7)) := by
  simp only [Status.word, BitVec.getLsbD_or, getLsbD_flagBit _ _ _ hj]

/-- R24: bits 31:8 are zero. -/
theorem Status.toNat_word_lt (f : Status) : f.word.toNat < 256 := by
  refine Nat.lt_pow_two_of_testBit (n := 8) _ fun j hj => ?_
  rw [BitVec.testBit_toNat]
  by_cases h32 : j < 32
  · have hne : ∀ k < 8, j ≠ k := by omega
    simp [f.getLsbD_word h32, hne, -BitVec.getLsbD_eq_getElem]
  · exact BitVec.getLsbD_of_ge _ _ (by omega)

/-- Settles O16: each flag stands at its own bit, and no flag above bit 7. -/
theorem statusReadsEachFlagAtItsBit : Obligations.StatusReadsEachFlagAtItsBit := by
  intro f
  refine ⟨?_, ?_, ?_, ?_, ?_, ?_, ?_, ?_, f.toNat_word_lt⟩ <;> simp [f.getLsbD_word, -BitVec.getLsbD_eq_getElem]

end Sys2Proof.Machine
end

section
/-! All six commands together: what each one may change (10_state.md section 7), and what follows for `HMAC` (R16, R67),
`HOTP` (R162) and `CLR` (R163). -/

namespace Sys2Proof.Machine

/-! ### The frame of each command -/

/-- R98, R99: the two ways `B32DEC` ends; only `E_B32CHAR` reports a character and a position (R191). -/
theorem b32decBody_cases {s : State} (hp : s.params.Legal) :
    (∃ out, out ≠ [] ∧ out.length ≤ s.params.keyMax ∧ b32decBody s = .ended (s.invalidateKey.acceptKey out)) ∨
      ∃ r : Raise, (r.code ≠ .eB32char → r.chr = 0 ∧ r.pos = 0) ∧ b32decBody s = .raised s.invalidateKey r := by
  by_cases ht : s.txtlen.toNat ≤ s.params.textMax
  · cases hdec : b32Decode s.text with
    | err chr pos => exact .inr ⟨_, fun h => absurd rfl h, b32decBody_badChar hp ht hdec⟩
    | ok out =>
      cases out with
      | nil => exact .inr ⟨_, fun _ => ⟨rfl, rfl⟩, b32decBody_empty hp ht hdec⟩
      | cons b bs =>
        exact .inl ⟨_, List.cons_ne_nil b bs, length_le_keyMax ht hdec,
          b32decBody_acceptKey hp ht hdec (List.cons_ne_nil b bs)⟩
  · exact .inr ⟨_, fun _ => ⟨rfl, rfl⟩, b32decBody_tooLong (Nat.not_le.1 ht)⟩

/-- R146, R147: the two ways `FMT` ends. -/
theorem fmtBody_cases (s : State) :
    (s.status.tvalid = true ∧ 1 ≤ s.cfg.digits.toNat ∧ s.cfg.digits.toNat ≤ 10 ∧ fmtBody s =
      .ended (s.invalidateCode.acceptCode (reduceCode s.trunc s.cfg.digits.toNat) s.cfg.digits.toNat)) ∨
      ∃ c : FaultCode, fmtBody s = .raised s.invalidateCode (.plain c) := by
  cases ht : s.status.tvalid with
  | false => exact .inr ⟨_, fmtBody_noTrunc ht⟩
  | true =>
    by_cases hd : s.cfg.digits.toNat = 0 ∨ 10 < s.cfg.digits.toNat
    · exact .inr ⟨_, fmtBody_digits ht hd⟩
    · exact .inl ⟨rfl, by omega, by omega, fmtBody_acceptCode ht (by omega) (by omega)⟩

theorem keyReplaced_of_exec_b32dec {s t : State} (hp : s.params.Legal) (h : exec .b32dec s = .next t) :
    KeyReplaced s t := by
  rw [exec_b32dec] at h
  injection h with h
  subst h
  have hinv := keyReplaced_invalidateKey s
  rcases b32decBody_cases hp with ⟨out, -, hfit, hbody⟩ | ⟨r, -, hbody⟩
  · exact KeyReplaced.finish (hbody ▸ hinv.acceptKey hfit)
  · exact KeyReplaced.finish (hbody ▸ hinv)

theorem digestReplaced_of_exec_hmac {s t : State} (h : exec .hmac s = .next t) : DigestReplaced s t := by
  rw [exec_hmac] at h
  injection h with h
  subst h
  have hinv := digestReplaced_invalidateDigest s
  cases hkey : s.status.keyvalid with
  | true => exact DigestReplaced.finish (hmacBody_acceptDigest hkey ▸ hinv.acceptDigest (length_hmacSha1 ..))
  | false => exact DigestReplaced.finish (hmacBody_noKey hkey ▸ hinv)

theorem digestKept_of_exec_trunc {s t : State} (h : exec .trunc s = .next t) : DigestKept s t := by
  have hinv := digestKept_invalidateTrunc s
  cases hd : s.status.dvalid with
  | true =>
    rw [exec_trunc_digest hd] at h
    injection h with h
    subst h
    exact (hinv.trans (digestKept_acceptTrunc ..)).trans (truncKept_completeOk _).toDigestKept
  | false =>
    rw [exec_trunc_noDigest hd] at h
    injection h with h
    subst h
    exact hinv.trans (truncKept_enterFault ..).toDigestKept

theorem truncKept_of_exec_fmt {s t : State} (h : exec .fmt s = .next t) : TruncKept s t := by
  rw [exec_fmt] at h
  injection h with h
  subst h
  have hinv := truncKept_invalidateCode s
  rcases fmtBody_cases s with ⟨-, -, h10, hbody⟩ | ⟨c, hbody⟩ <;> rw [hbody]
  · exact (hinv.trans (truncKept_acceptCode _ _ h10)).trans (truncKept_completeOk _)
  · exact hinv.trans (truncKept_enterFault ..)

theorem DigestKept.keyKept {s t : State} (h : DigestKept s t) : KeyKept s t :=
  ⟨h.key, h.inputs, h.control, fun a ha => h.bytes a fun b hb => ha b (List.mem_cons_of_mem _ hb)⟩

theorem keyKept_of_exec_hotp {s t : State} (h : exec .hotp s = .next t) : KeyKept s t := by
  cases hkey : s.status.keyvalid with
  | true =>
    rw [exec_hotp_key hkey] at h
    exact ((truncated_hotpTruncate s (length_hmacSha1 ..)).of_truncKept (truncKept_of_exec_fmt h)).toKeyKept
  | false =>
    rw [exec_hotp_noKey hkey] at h
    exact (digestReplaced_of_exec_hmac h).keyKept

/-- 10_state.md section 3: four commands leave the key, the inputs and all bytes outside `DIGEST` and `CODE`. -/
theorem keyKept_of_exec {i : Instr} {s t : State} (hdec : i ≠ .b32dec) (hclr : i ≠ .clr)
    (h : exec i s = .next t) : KeyKept s t := by
  cases i with
  | b32dec => exact absurd rfl hdec
  | hmac => exact (digestReplaced_of_exec_hmac h).keyKept
  | trunc => exact (digestKept_of_exec_trunc h).keyKept
  | fmt => exact (truncKept_of_exec_fmt h).keyKept
  | hotp => exact keyKept_of_exec_hotp h
  | clr => exact absurd rfl hclr

/-! ### Cells by buffer -/

/-- R51: a cell of one buffer is in no other. -/
theorem not_inBuffer_cell {p : Config.Params} (hp : p.Legal) {b b' : Buffer} (hne : b' ≠ b) {i : Nat}
    (hi : i < b.size p) : ¬InBuffer p b' (b.base + i) := by
  intro h
  have hin : InBuffer p b (b.base + i) := ⟨Nat.le_add_right .., Nat.add_lt_add_left hi _⟩
  have hloc := locate_one hp h
  rw [locate_one hp hin] at hloc
  injection hloc with hloc
  injection hloc with hb
  exact hne hb.symm

/-- A buffer outside the changed ones keeps its cells. -/
theorem cell_of_sameBytesOutside {s t : State} {bs : List Buffer} (h : SameBytesOutside s t bs)
    (hp : s.params.Legal) {b : Buffer} (hb : b ∉ bs) {i : Nat} (hi : i < b.size s.params) :
    t.cell b i = s.cell b i :=
  h _ fun _ hb' => not_inBuffer_cell hp (ne_of_mem_of_not_mem hb' hb) hi

theorem SameBytesOutside.mono {s t : State} {bs bs' : List Buffer} (h : SameBytesOutside s t bs) (hsub : bs ⊆ bs') :
    SameBytesOutside s t bs' :=
  fun a ha => h a fun b hb => ha b (hsub hb)

/-! ### `CLR` -/

/-- R163: the bytes after `CLR`. -/
theorem readByte_of_exec_clr {s t : State} (h : exec .clr s = .next t) (a : Nat) :
    t.readByte a = if InBuffer s.params .txt a then 0 else s.invalidateKey.readByte a := by
  rw [exec_clr] at h
  injection h with h
  subst h
  exact s.invalidateKey.readByte_zeroBuffer .txt a

theorem sameBytesOutside_of_exec_clr {s t : State} (h : exec .clr s = .next t) :
    SameBytesOutside s t [.txt, .key, .digest, .code] := fun a ha => by
  rw [readByte_of_exec_clr h, if_neg (ha .txt (by simp))]
  exact (keyReplaced_invalidateKey s).bytes a fun b hb => ha b (List.mem_cons_of_mem _ hb)

/-- Settles O46: the frame of each command, and the buffers outside it cell by cell. -/
theorem commandsChangeOnlyWhatTheyOwn : Obligations.CommandsChangeOnlyWhatTheyOwn := by
  intro i s t hp h
  obtain ⟨hcontrol, hcfg⟩ := exec_control h
  refine ⟨hcfg, hcontrol, (exec_over h).1, ?outside, fun hclr => ?inputs, fun hdec hclr => ?key, fun hi => ?digest,
    fun hi => ?trunc⟩
  case outside =>
    by_cases hclr : i = .clr
    · exact sameBytesOutside_of_exec_clr (hclr ▸ h)
    by_cases hdec : i = .b32dec
    · subst hdec
      exact SameBytesOutside.mono (keyReplaced_of_exec_b32dec hp h).bytes (by simp)
    · exact SameBytesOutside.mono (keyKept_of_exec hdec hclr h).bytes (by simp)
  case inputs =>
    by_cases hdec : i = .b32dec
    · subst hdec
      have hkept := keyReplaced_of_exec_b32dec hp h
      exact ⟨hkept.inputs, fun j hj => cell_of_sameBytesOutside hkept.bytes hp (by decide) hj⟩
    · have hkept := keyKept_of_exec hdec hclr h
      exact ⟨hkept.inputs, fun j hj => cell_of_sameBytesOutside hkept.bytes hp (by decide) hj⟩
  case key =>
    have hkept := keyKept_of_exec hdec hclr h
    exact ⟨hkept.key, fun j hj => cell_of_sameBytesOutside hkept.bytes hp (by decide) hj⟩
  case digest =>
    have hkept : DigestKept s t := by
      rcases hi with rfl | rfl
      · exact digestKept_of_exec_trunc h
      · exact (truncKept_of_exec_fmt h).toDigestKept
    exact ⟨hkept.dvalid, fun j hj => cell_of_sameBytesOutside hkept.bytes hp (by decide) hj⟩
  case trunc =>
    subst hi
    exact ⟨(truncKept_of_exec_fmt h).tvalid, (truncKept_of_exec_fmt h).trunc⟩

/-- R163: with every listed byte in a buffer, zeroing the four buffers leaves no byte listed. -/
theorem mem_clr {s : State} (hcells : OnlyBufferCells s) : (s.invalidateKey.zeroBuffer .txt).mem = [] := by
  refine List.eq_nil_iff_forall_not_mem.2 fun c hc => ?_
  simp only [State.zeroBuffer_mem, State.invalidateKey_mem, Memory.mem_zero_iff] at hc
  obtain ⟨⟨⟨⟨hlisted, hcode⟩, hdigest⟩, hkey⟩, htxt⟩ := hc
  obtain ⟨b, hb⟩ := hcells c hlisted
  cases b with
  | digest => exact hdigest hb
  | code => exact hcode hb
  | txt => exact htxt hb
  | key => exact hkey hb

/-- Settles O45: `CLR` writes each register's reset value, and `mem_clr` empties the memory. -/
theorem clrReturnsToTheResetState : Obligations.ClrReturnsToTheResetState := by
  intro s _ hcells
  rw [exec_clr]
  have hmem := mem_clr hcells
  have hbody : clrBody s = .ended
      { s.invalidateKey.zeroBuffer .txt with txtlen := 0, ctrHi := 0, ctrLo := 0, mem := [] } := by
    rw [← hmem]; rfl
  rw [hbody]
  rfl

/-! ### `HMAC` reads the key and the counter only -/

theorem keyBytes_congr {s u : State} (hlen : s.keylen = u.keylen)
    (hcells : ∀ i, i < s.keylen.toNat → s.cell .key i = u.cell .key i) : s.keyBytes = u.keyBytes := by
  rw [State.keyBytes, State.keyBytes, ← hlen]
  exact State.slice_congr hcells

/-- R37: a buffer that holds a digest reads it cell by cell. -/
theorem DigestHolds.cell {t : State} {d : List Byte} (h : DigestHolds t d) {i : Nat} (hi : i < 20) :
    t.cell .digest i = d.getD i 0 := by
  rw [← h.bytes]
  exact (t.getD_slice .digest 20 i hi 0).symm

/-- R121: the digest `HMAC` leaves. -/
theorem digest_of_exec_hmac {s t : State} (h : exec .hmac s = .next t) :
    (s.status.keyvalid = true → DigestHolds t (hmacSha1 s.keyBytes (bytesOfCounter (s.ctrHi ++ s.ctrLo)))) ∧
      (s.status.keyvalid = false → DigestCleared t) := by
  obtain ⟨hkey, hnoKey⟩ := hmacFollowsItsRule s
  constructor <;> intro hk
  · obtain ⟨t', ht', -, hd, -⟩ := hkey hk
    exact Host.Outcome.next.inj (ht'.symm.trans h) ▸ hd
  · obtain ⟨t', ht', -, hd, -⟩ := hnoKey hk
    exact Host.Outcome.next.inj (ht'.symm.trans h) ▸ hd

/-- Settles O37: both runs hold the digest of the same key and counter, or both are cleared. -/
theorem digestDependsOnKeyAndCounterOnly : Obligations.DigestDependsOnKeyAndCounterOnly := by
  intro s u t v hs hu hvalid hlen hcells hhi hlo
  obtain ⟨hsKey, hsNoKey⟩ := digest_of_exec_hmac hs
  obtain ⟨huKey, huNoKey⟩ := digest_of_exec_hmac hu
  rw [← hvalid, ← keyBytes_congr hlen hcells, ← hhi, ← hlo] at huKey
  rw [← hvalid] at huNoKey
  cases hk : s.status.keyvalid with
  | true =>
    have ht := hsKey hk
    have hv := huKey hk
    exact ⟨ht.dvalid.trans hv.dvalid.symm, fun i hi => (ht.cell hi).trans (hv.cell hi).symm⟩
  | false =>
    have ht := hsNoKey hk
    have hv := huNoKey hk
    exact ⟨ht.dvalid.trans hv.dvalid.symm, fun i hi => (ht.cells i hi).trans (hv.cells i hi).symm⟩

/-! ### `HOTP` against its stages issued one after another -/

/-- A state with its report fields written out. -/
theorem State.eq_with_report (t : State) {done err : Bool} {e : ErrInfo} (hdone : t.status.done = done)
    (herr : t.status.err = err) (hinfo : t.errinfo = e) :
    t = { t with status := { t.status with done := done, err := err }, errinfo := e } := by
  subst hdone herr hinfo; rfl

/-- R162: with a key, `TRUNC` issued after `HMAC` leaves, at the next issue, what the two stages inside `HOTP` leave. -/
theorem exec_trunc_after_hmac (s : State) {d : List Byte} (hd : d.length = 20) (w w' : Word) :
    ∃ t, exec .trunc ((s.invalidateDigest.acceptDigest d).completeOk.issue w) = .next t ∧
      t.issue w' = (s.hotpTruncate d).issue w' := by
  have hbytes : ((s.invalidateDigest.acceptDigest d).completeOk.issue w).digestBytes = d :=
    (digestHolds_acceptDigest s.invalidateDigest hd).bytes
  refine ⟨_, exec_trunc_digest rfl, ?_⟩
  rw [hbytes]
  rfl

/-- R39: invalidating the digest has cleared `CODE` already. -/
theorem zero_code_invalidateDigest (s : State) :
    Memory.zero s.invalidateDigest.mem Buffer.code.base Config.codeMax = s.invalidateDigest.mem := by
  refine Memory.zero_eq_self fun c hc => ?_
  rw [State.invalidateDigest_mem, Memory.mem_zero_iff, Memory.mem_zero_iff] at hc
  exact hc.1.2

/-- R162: an issue before `FMT` shows in `CMDLATCH` only, where the report was clear, or the fault overwrites it. -/
theorem finish_fmtBody_issue {u : State} (w : Word) (ht : u.status.tvalid = true) (hdone : u.status.done = false)
    (herr : u.status.err = false)
    (hinfo : 1 ≤ u.cfg.digits.toNat → u.cfg.digits.toNat ≤ 10 → u.errinfo = ⟨0, 0, 0⟩) :
    (fmtBody u).finish = { (fmtBody (u.issue w)).finish with cmdlatch := u.cmdlatch } := by
  have ht' : (u.issue w).status.tvalid = true := ht
  by_cases hd : u.cfg.digits.toNat = 0 ∨ 10 < u.cfg.digits.toNat
  · rw [fmtBody_digits ht hd, fmtBody_digits ht' (u.issue_cfg w ▸ hd)]
    exact State.eq_with_report _ hdone rfl rfl
  · have h1 : 1 ≤ u.cfg.digits.toNat := by omega
    have h10 : u.cfg.digits.toNat ≤ 10 := by omega
    rw [fmtBody_acceptCode ht h1 h10, fmtBody_acceptCode ht' (u.issue_cfg w ▸ h1) (u.issue_cfg w ▸ h10)]
    exact State.eq_with_report _ rfl herr (hinfo h1 h10)

/-- R162: without a key, `TRUNC` and `FMT` issued after `HMAC` find everything cleared, and fault. -/
theorem exec_stage_after_noKey (s : State) (r : Raise) (w : Word) {i : Instr} (hi : i = .trunc ∨ i = .fmt) :
    exec i ((s.invalidateDigest.enterFault r).issue w) =
      .next (((s.invalidateDigest.enterFault r).issue w).enterFault (.plain .eSeq)) := by
  have hmem : ((s.invalidateDigest.enterFault r).issue w) = { (s.invalidateDigest.enterFault r).issue w with
      mem := Memory.zero s.invalidateDigest.mem Buffer.code.base Config.codeMax } := by
    rw [zero_code_invalidateDigest]; rfl
  rcases hi with rfl | rfl
  · rw [exec_trunc_noDigest rfl]
    conv_rhs => rw [hmem]
    rfl
  · rw [exec_fmt_raised (fmtBody_noTrunc rfl)]
    conv_rhs => rw [hmem]
    rfl

@[simp] theorem State.hotpTruncate_cmdlatch (s : State) (d : List Byte) :
    (s.hotpTruncate d).cmdlatch = s.cmdlatch := by
  simp [State.hotpTruncate, State.acceptTrunc, State.acceptDigest]

/-- Settles O44: with a key, `FMT` runs on the same state but for the report fields and `CMDLATCH`; without one, each
stage faults and clears what is clear. -/
theorem hotpEqualsTheThreeStages : Obligations.HotpEqualsTheThreeStages := by
  intro s hdone herr
  cases hkey : s.status.keyvalid with
  | true =>
    have hd := length_hmacSha1 s.keyBytes (bytesOfCounter (s.ctrHi ++ s.ctrLo))
    have hhotp := (exec_hotp_key hkey).trans (exec_fmt _)
    have hhmac := exec_hmac_key hkey
    generalize hmacSha1 s.keyBytes (bytesOfCounter (s.ctrHi ++ s.ctrLo)) = d at hd hhotp hhmac
    obtain ⟨t2, htrunc, hissue⟩ := exec_trunc_after_hmac s hd (encode .trunc) (encode .fmt)
    have hfmt := finish_fmtBody_issue (u := s.hotpTruncate d) (encode .fmt) (by simp) (by simpa using hdone)
      (by simpa using herr)
    rw [State.hotpTruncate_cfg, State.hotpTruncate_errinfo, State.hotpTruncate_cmdlatch, ← hissue] at hfmt
    exact ⟨_, _, t2, _, hhotp, hhmac, htrunc, exec_fmt _, fun _ _ _ hinfo => hfmt fun _ _ => hinfo,
      fun _ hdigits => hfmt fun _ _ => by omega, fun hno => by cases hno⟩
  | false =>
    have hhmac := exec_hmac_noKey hkey
    have hfmt := exec_stage_after_noKey s (.plain .eNokey) (encode .fmt) (.inr rfl)
    exact ⟨_, _, _, _, (exec_hotp_noKey hkey).trans hhmac, hhmac,
      exec_stage_after_noKey s _ (encode .trunc) (.inl rfl), hfmt, nofun, nofun,
      fun _ => ⟨State.eq_with_report _ hdone rfl rfl, rfl⟩⟩

end Sys2Proof.Machine
end

section
/-! The invariant of 10_state.md section 4, level by level: the memory, the key, the digest, the truncation, the code
and the fault report. Each level survives what leaves its own part alone, each stage of a command establishes the level
it writes and clears the ones downstream, and `State.Inv` is the conjunction. -/

namespace Sys2Proof.Machine

/-! ### The levels -/

/-- R5, R51, log 4: the memory is in canonical form and lists buffer cells only. -/
structure MemoryOk (p : Config.Params) (m : Memory) : Prop where
  legal : p.Legal
  wf : Memory.wf m
  cells : ∀ c ∈ m, ∃ b : Buffer, InBuffer p b c.1

/-- R39, R36: `KEY` holds a key of 1 to `KEY_MAX` bytes or is cleared. -/
structure KeyOk (s : State) : Prop where
  valid : s.status.keyvalid = true →
    1 ≤ s.keylen.toNat ∧ s.keylen.toNat ≤ s.params.keyMax ∧ KeyHolds s s.keyBytes
  cleared : s.status.keyvalid = false → KeyCleared s

/-- R39: `DIGEST` holds an HMAC under a valid key or is cleared. -/
structure DigestOk (s : State) : Prop where
  upstream : s.status.dvalid = true → s.status.keyvalid = true
  valid : s.status.dvalid = true → ∃ c : BitVec 64, DigestHolds s (hmacSha1 s.keyBytes (bytesOfCounter c))
  cleared : s.status.dvalid = false → DigestCleared s

/-- R39: `TRUNC` holds the truncation of a valid digest or is cleared. -/
structure TruncOk (s : State) : Prop where
  upstream : s.status.tvalid = true → s.status.dvalid = true
  valid : s.status.tvalid = true → s.trunc = dynTrunc s.digestBytes
  cleared : s.status.tvalid = false → TruncCleared s

/-- R39: `CODE` holds the code of a valid `TRUNC` or is cleared. -/
structure CodeOk (s : State) : Prop where
  upstream : s.status.cvalid = true → s.status.tvalid = true
  valid : s.status.cvalid = true → 1 ≤ s.codelen.toNat ∧ s.codelen.toNat ≤ 10 ∧
    CodeHolds s (s.trunc.toNat % 10 ^ s.codelen.toNat) s.codelen.toNat
  cleared : s.status.cvalid = false → CodeCleared s

/-- R39: the result chain, all levels. -/
structure ChainOk (s : State) : Prop where
  mem : MemoryOk s.params s.mem
  key : KeyOk s
  digest : DigestOk s
  trunc : TruncOk s
  code : CodeOk s

/-- R24, R14, R30, R191: the report flags and `ERRINFO`. -/
structure ReportOk (s : State) : Prop where
  oneOutcome : s.status.done = false ∨ s.status.err = false
  busyClean : s.status.busy = true → s.status.done = false ∧ s.status.err = false ∧ s.errinfo = ⟨0, 0, 0⟩
  codeRange : s.errinfo.code.toNat ≤ 7
  reported : s.status.err = true → s.errinfo.code ≠ 0
  onlyCharPosition : s.errinfo.code ≠ 1 → s.errinfo.chr = 0 ∧ s.errinfo.pos = 0

theorem State.Inv.chainOk {s : State} (h : s.Inv) : ChainOk s where
  mem := ⟨h.legal, h.memWf, h.cells⟩
  key := ⟨h.keyValid, h.keyZero⟩
  digest := ⟨h.digestChain, h.digestValid, h.digestZero⟩
  trunc := ⟨h.truncChain, h.truncValid, h.truncZero⟩
  code := ⟨h.codeChain, h.codeValid, h.codeZero⟩

theorem State.Inv.reportOk {s : State} (h : s.Inv) : ReportOk s :=
  ⟨h.oneOutcome, h.busyClean, h.codeRange, h.reported, h.onlyCharPosition⟩

theorem ChainOk.inv {s : State} (h : ChainOk s) (hr : ReportOk s) : s.Inv where
  legal := h.mem.legal
  memWf := h.mem.wf
  cells := h.mem.cells
  codeChain := h.code.upstream
  truncChain := h.trunc.upstream
  digestChain := h.digest.upstream
  keyValid := h.key.valid
  keyZero := h.key.cleared
  digestValid := h.digest.valid
  digestZero := h.digest.cleared
  truncValid := h.trunc.valid
  truncZero := h.trunc.cleared
  codeValid := h.code.valid
  codeZero := h.code.cleared
  oneOutcome := hr.oneOutcome
  busyClean := hr.busyClean
  codeRange := hr.codeRange
  reported := hr.reported
  onlyCharPosition := hr.onlyCharPosition

/-! ### A cleared level -/

theorem KeyCleared.keyOk {s : State} (h : KeyCleared s) : KeyOk s :=
  ⟨fun hv => (nomatch hv.symm.trans h.keyvalid), fun _ => h⟩

theorem DigestCleared.digestOk {s : State} (h : DigestCleared s) : DigestOk s :=
  ⟨fun hv => (nomatch hv.symm.trans h.dvalid), fun hv => (nomatch hv.symm.trans h.dvalid), fun _ => h⟩

theorem TruncCleared.truncOk {s : State} (h : TruncCleared s) : TruncOk s :=
  ⟨fun hv => (nomatch hv.symm.trans h.tvalid), fun hv => (nomatch hv.symm.trans h.tvalid), fun _ => h⟩

theorem CodeCleared.codeOk {s : State} (h : CodeCleared s) : CodeOk s :=
  ⟨fun hv => (nomatch hv.symm.trans h.cvalid), fun hv => (nomatch hv.symm.trans h.cvalid), fun _ => h⟩

/-! ### The memory -/

theorem MemoryOk.zero {p : Config.Params} {m : Memory} (h : MemoryOk p m) (base n : Nat) :
    MemoryOk p (Memory.zero m base n) :=
  ⟨h.legal, Memory.wf_zero h.wf base n, fun c hc => h.cells c ((Memory.mem_zero_iff ..).1 hc).1⟩

theorem MemoryOk.store {p : Config.Params} {m : Memory} (h : MemoryOk p m) (b : Buffer) {bs : List Byte}
    (hfit : bs.length ≤ b.size p) : MemoryOk p (Memory.store m b.base bs) := by
  refine ⟨h.legal, Memory.wf_store h.wf _ _, fun c hc => ?_⟩
  rcases Memory.mem_store hc with hc | ⟨hlo, hhi⟩
  · exact h.cells c hc
  · exact ⟨b, hlo, by omega⟩

theorem MemoryOk.set {p : Config.Params} {m : Memory} (h : MemoryOk p m) {b : Buffer} {i : Nat} (hi : i < b.size p)
    (v : Byte) : MemoryOk p (Memory.set m (b.base + i) v) := by
  refine ⟨h.legal, Memory.wf_set h.wf _ _, fun c hc => ?_⟩
  rcases Memory.mem_set hc with rfl | hc
  · exact ⟨b, Nat.le_add_right .., Nat.add_lt_add_left hi _⟩
  · exact h.cells c hc

/-! ### What leaves a level alone -/

/-- R36: a valid key reads the same where its cells and its length do. -/
theorem KeyOk.keyBytes_eq {s t : State} (h : KeyOk s) (hv : s.status.keyvalid = true) (hlen : t.keylen = s.keylen)
    (hcells : ∀ i, i < s.params.keyMax → t.cell .key i = s.cell .key i) : t.keyBytes = s.keyBytes := by
  obtain ⟨-, hmax, -⟩ := h.valid hv
  exact keyBytes_congr hlen fun i hi => hcells i (by rw [hlen] at hi; omega)

theorem KeyOk.congr {s t : State} (h : KeyOk s) (hp : t.params = s.params) (hkey : SameKey s t)
    (hcells : ∀ i, i < s.params.keyMax → t.cell .key i = s.cell .key i) : KeyOk t := by
  obtain ⟨hvalid, hlen⟩ := hkey
  constructor <;> intro hv <;> rw [hvalid] at hv
  · have hbytes := h.keyBytes_eq hv hlen hcells
    obtain ⟨h1, hmax, hholds⟩ := h.valid hv
    rw [hlen, hp, hbytes]
    exact ⟨h1, hmax, hvalid.trans hv, by rw [hlen, hholds.keylen], hbytes,
      fun i hi hi' => (hcells i (hp ▸ hi')).trans (hholds.tail i hi (hp ▸ hi'))⟩
  · have hc := h.cleared hv
    exact ⟨hvalid.trans hv, hlen.trans hc.keylen, fun i hi => (hcells i (hp ▸ hi)).trans (hc.cells i (hp ▸ hi))⟩

theorem digestBytes_congr {s t : State} (hcells : ∀ i, i < 20 → t.cell .digest i = s.cell .digest i) :
    t.digestBytes = s.digestBytes :=
  State.slice_congr hcells

theorem DigestOk.congr {s t : State} (h : DigestOk s) (hd : t.status.dvalid = s.status.dvalid)
    (hk : t.status.keyvalid = s.status.keyvalid) (hkey : s.status.keyvalid = true → t.keyBytes = s.keyBytes)
    (hcells : ∀ i, i < 20 → t.cell .digest i = s.cell .digest i) : DigestOk t := by
  constructor <;> intro hv <;> rw [hd] at hv
  · exact hk.trans (h.upstream hv)
  · obtain ⟨c, hholds⟩ := h.valid hv
    rw [hkey (h.upstream hv)]
    exact ⟨c, hd.trans hv, (digestBytes_congr hcells).trans hholds.bytes⟩
  · exact ⟨hd.trans hv, fun i hi => (hcells i hi).trans ((h.cleared hv).cells i hi)⟩

theorem TruncOk.congr {s t : State} (h : TruncOk s) (ht : t.status.tvalid = s.status.tvalid)
    (hd : t.status.dvalid = s.status.dvalid) (htrunc : t.trunc = s.trunc)
    (hcells : ∀ i, i < 20 → t.cell .digest i = s.cell .digest i) : TruncOk t := by
  constructor <;> intro hv <;> rw [ht] at hv
  · exact hd.trans (h.upstream hv)
  · rw [htrunc, digestBytes_congr hcells, h.valid hv]
  · exact ⟨ht.trans hv, htrunc.trans (h.cleared hv).trunc⟩

theorem CodeOk.congr {s t : State} (h : CodeOk s) (hc : t.status.cvalid = s.status.cvalid)
    (ht : t.status.tvalid = s.status.tvalid) (htrunc : t.trunc = s.trunc) (hval : t.codeval = s.codeval)
    (hlen : t.codelen = s.codelen) (hcells : ∀ i, i < 10 → t.cell .code i = s.cell .code i) : CodeOk t := by
  constructor <;> intro hv <;> rw [hc] at hv
  · exact ht.trans (h.upstream hv)
  · obtain ⟨h1, h10, hholds⟩ := h.valid hv
    rw [hlen, htrunc]
    have hslice : t.slice .code s.codelen.toNat = s.slice .code s.codelen.toNat :=
      State.slice_congr fun i hi => hcells i (by omega)
    exact ⟨h1, h10, hc.trans hv, by rw [hlen], by rw [hval, hholds.codeval], hslice.trans hholds.bytes,
      fun i hi hi' => (hcells i hi').trans (hholds.tail i hi hi')⟩
  · have hz := h.cleared hv
    exact ⟨hc.trans hv, hval.trans hz.codeval, hlen.trans hz.codelen, fun i hi => (hcells i hi).trans (hz.cells i hi)⟩

/-- R226: what keeps the results keeps the chain, if the memory stays in form. -/
theorem ChainOk.of_resultsKept {s t : State} (h : ChainOk s) (hk : ResultsKept s t) (hm : MemoryOk t.params t.mem) :
    ChainOk t := by
  have hcells (b : Buffer) (hb : b ∉ [Buffer.txt]) (i : Nat) (hi : i < b.size s.params) : t.cell b i = s.cell b i :=
    cell_of_sameBytesOutside hk.bytes h.mem.legal hb hi
  have hkey := hcells .key (by decide)
  have hdigest := hcells .digest (by decide)
  exact {
    mem := hm
    key := h.key.congr hk.params hk.key hkey
    digest := h.digest.congr hk.dvalid hk.key.keyvalid (fun hv => h.key.keyBytes_eq hv hk.key.keylen hkey) hdigest
    trunc := h.trunc.congr hk.tvalid hk.dvalid hk.trunc hdigest
    code := h.code.congr hk.cvalid hk.tvalid hk.trunc hk.codeval hk.codelen (hcells .code (by decide)) }

/-- A change outside the memory that keeps the results keeps the chain. -/
theorem ChainOk.of_same {s t : State} (h : ChainOk s) (hk : ResultsKept s t) (hm : t.mem = s.mem) : ChainOk t :=
  h.of_resultsKept hk (by rw [hk.params, hm]; exact h.mem)

/-! ### The stages of the commands -/

theorem ChainOk.key_of_keyKept {s t : State} (h : ChainOk s) (hk : KeyKept s t) : KeyOk t :=
  h.key.congr hk.control.params hk.key fun _ hi => cell_of_sameBytesOutside hk.bytes h.mem.legal (by decide) hi

theorem ChainOk.keyBytes_of_keyKept {s t : State} (h : ChainOk s) (hk : KeyKept s t) (hv : s.status.keyvalid = true) :
    t.keyBytes = s.keyBytes :=
  h.key.keyBytes_eq hv hk.key.keylen fun _ hi => cell_of_sameBytesOutside hk.bytes h.mem.legal (by decide) hi

theorem ChainOk.digest_of_digestKept {s t : State} (h : ChainOk s) (hk : DigestKept s t) : DigestOk t :=
  h.digest.congr hk.dvalid hk.key.keyvalid (h.keyBytes_of_keyKept hk.keyKept) fun _ hi =>
    cell_of_sameBytesOutside hk.bytes h.mem.legal (by decide) hi

theorem ChainOk.trunc_of_truncKept {s t : State} (h : ChainOk s) (hk : TruncKept s t) : TruncOk t :=
  h.trunc.congr hk.tvalid hk.dvalid hk.trunc fun _ hi =>
    cell_of_sameBytesOutside hk.bytes h.mem.legal (by decide) hi

/-- R39: invalidating the code, by its own frame. -/
theorem ChainOk.invalidateCode {s : State} (h : ChainOk s) : ChainOk s.invalidateCode :=
  have hkept := truncKept_invalidateCode s
  { mem := h.mem.zero _ _
    key := h.key_of_keyKept hkept.toDigestKept.keyKept
    digest := h.digest_of_digestKept hkept.toDigestKept
    trunc := h.trunc_of_truncKept hkept
    code := (codeCleared_invalidateCode s).codeOk }

theorem ChainOk.invalidateTrunc {s : State} (h : ChainOk s) : ChainOk s.invalidateTrunc :=
  have hkept := digestKept_invalidateTrunc s
  { mem := h.mem.zero _ _
    key := h.key_of_keyKept hkept.keyKept
    digest := h.digest_of_digestKept hkept
    trunc := TruncCleared.truncOk ⟨rfl, rfl⟩
    code := (codeCleared_invalidateTrunc s).codeOk }

theorem ChainOk.invalidateDigest {s : State} (h : ChainOk s) : ChainOk s.invalidateDigest :=
  have hreplaced := digestReplaced_invalidateDigest s
  { mem := (h.mem.zero _ _).zero _ _
    key := h.key_of_keyKept hreplaced.keyKept
    digest := (digestCleared_invalidateDigest s).digestOk
    trunc := hreplaced.trunc.truncOk
    code := hreplaced.code.codeOk }

theorem ChainOk.invalidateKey {s : State} (h : ChainOk s) : ChainOk s.invalidateKey :=
  have hreplaced := keyReplaced_invalidateKey s
  { mem := ((h.mem.zero _ _).zero _ _).zero _ _
    key := (keyCleared_invalidateKey s).keyOk
    digest := hreplaced.digest.digestOk
    trunc := hreplaced.trunc.truncOk
    code := hreplaced.code.codeOk }

/-- R98: the accepted key, over everything invalidated. -/
theorem ChainOk.acceptKey {s : State} (h : ChainOk s) {k : List Byte} (hne : k ≠ [])
    (hfit : k.length ≤ s.params.keyMax) :
    ChainOk (s.invalidateKey.acceptKey k) := by
  have hmax := keyMax_le h.mem.legal
  have hpos := List.length_pos_iff.2 hne
  have hreplaced := (keyReplaced_invalidateKey s).acceptKey hfit
  have hholds := keyHolds_acceptKey (keyCleared_invalidateKey s) (k := k) (by omega)
  exact {
    mem := h.invalidateKey.mem.store .key hfit
    key := ⟨fun _ => by rw [hholds.bytes, hholds.keylen]; exact ⟨hpos, hfit, hholds⟩, nofun⟩
    digest := hreplaced.digest.digestOk
    trunc := hreplaced.trunc.truncOk
    code := hreplaced.code.codeOk }

/-- R121: the accepted digest, under the key that stays. -/
theorem ChainOk.acceptDigest {s : State} (h : ChainOk s) (hkey : s.status.keyvalid = true) (c : BitVec 64) :
    ChainOk (s.invalidateDigest.acceptDigest (hmacSha1 s.keyBytes (bytesOfCounter c))) := by
  have hlen := length_hmacSha1 s.keyBytes (bytesOfCounter c)
  have hreplaced := (digestReplaced_invalidateDigest s).acceptDigest hlen
  have hholds := digestHolds_acceptDigest s.invalidateDigest hlen
  have hbytes := h.keyBytes_of_keyKept hreplaced.keyKept hkey
  exact {
    mem := h.invalidateDigest.mem.store .digest (Nat.le_of_eq hlen)
    key := h.key_of_keyKept hreplaced.keyKept
    digest := ⟨fun _ => hkey, fun _ => ⟨c, by rw [hbytes]; exact hholds⟩, nofun⟩
    trunc := hreplaced.trunc.truncOk
    code := hreplaced.code.codeOk }

/-- R142: the accepted truncation, of the digest that stays. -/
theorem ChainOk.acceptTrunc {s : State} (h : ChainOk s) (hd : s.status.dvalid = true) :
    ChainOk (s.invalidateTrunc.acceptTrunc (dynTrunc s.digestBytes)) :=
  have hkept := (digestKept_invalidateTrunc s).trans (digestKept_acceptTrunc _ (dynTrunc s.digestBytes))
  { mem := h.invalidateTrunc.mem
    key := h.key_of_keyKept hkept.keyKept
    digest := h.digest_of_digestKept hkept
    trunc := ⟨fun _ => hd, fun _ => congrArg dynTrunc s.digestBytes_invalidateTrunc.symm, nofun⟩
    code := ((codeCleared_invalidateTrunc s).acceptTrunc _).codeOk }

/-- R146: the accepted code, of the `TRUNC` that stays. -/
theorem ChainOk.acceptCode {s : State} (h : ChainOk s) (ht : s.status.tvalid = true) {n : Nat} (h1 : 1 ≤ n)
    (h10 : n ≤ 10) : ChainOk (s.invalidateCode.acceptCode (reduceCode s.trunc n) n) := by
  have hkept := (truncKept_invalidateCode s).trans (truncKept_acceptCode _ (reduceCode s.trunc n) h10)
  have hholds := codeHolds_acceptCode (codeCleared_invalidateCode s) (reduceCode_lt s.trunc n) h10
  exact {
    mem := h.invalidateCode.mem.store .code (by rw [length_renderDec]; exact h10)
    key := h.key_of_keyKept hkept.toDigestKept.keyKept
    digest := h.digest_of_digestKept hkept.toDigestKept
    trunc := h.trunc_of_truncKept hkept
    code := ⟨fun _ => ht, fun _ => by rw [hholds.codelen, hkept.trunc]; exact ⟨h1, h10, hholds⟩, nofun⟩ }

/-! ### The bodies of the commands -/

/-- R201: the report flags and `ERRINFO` are kept. -/
structure SameReport (s t : State) : Prop where
  done : t.status.done = s.status.done
  err : t.status.err = s.status.err
  errinfo : t.errinfo = s.errinfo

/-- A body that keeps the chain, leaves the report to the completion, and raises a character and a position with
`E_B32CHAR` only (R191). -/
inductive Body.KeepsChain (s : State) : Body → Prop where
  | ended (u : State) (hc : ChainOk u) (hr : SameReport s u) : Body.KeepsChain s (.ended u)
  | raised (u : State) (r : Raise) (hc : ChainOk u) (hr : SameReport s u)
      (hpos : r.code ≠ .eB32char → r.chr = 0 ∧ r.pos = 0) : Body.KeepsChain s (.raised u r)

theorem SameReport.trans {s t u : State} (h : SameReport s t) (h' : SameReport t u) : SameReport s u :=
  ⟨h'.done.trans h.done, h'.err.trans h.err, h'.errinfo.trans h.errinfo⟩

theorem Body.KeepsChain.of_sameReport {s u : State} {b : Body} (h : b.KeepsChain u) (hr : SameReport s u) :
    b.KeepsChain s := by
  cases h with
  | ended v hv hr' => exact .ended v hv (hr.trans hr')
  | raised v r hv hr' hpos => exact .raised v r hv (hr.trans hr') hpos

theorem Body.KeepsChain.andThen {s : State} {b : Body} {f : State → Body} (h : b.KeepsChain s)
    (hf : ∀ u, ChainOk u → (f u).KeepsChain u) : (b.andThen f).KeepsChain s := by
  cases h with
  | ended u hc hr =>
    exact (hf u hc).of_sameReport hr
  | raised u r hc hr hpos => exact .raised u r hc hr hpos

theorem b32decBody_keepsChain {s : State} (h : ChainOk s) : (b32decBody s).KeepsChain s := by
  rcases b32decBody_cases h.mem.legal with ⟨out, hne, hfit, hbody⟩ | ⟨r, hpos, hbody⟩ <;> rw [hbody]
  · exact .ended _ (h.acceptKey hne hfit) ⟨rfl, rfl, rfl⟩
  · exact .raised _ r h.invalidateKey ⟨rfl, rfl, rfl⟩ hpos

theorem hmacBody_keepsChain {s : State} (h : ChainOk s) : (hmacBody s).KeepsChain s := by
  cases hkey : s.status.keyvalid with
  | true => rw [hmacBody_acceptDigest hkey]; exact .ended _ (h.acceptDigest hkey _) ⟨rfl, rfl, rfl⟩
  | false => rw [hmacBody_noKey hkey]; exact .raised _ _ h.invalidateDigest ⟨rfl, rfl, rfl⟩ fun _ => ⟨rfl, rfl⟩

theorem truncBody_keepsChain {s : State} (h : ChainOk s) : (truncBody s).KeepsChain s := by
  cases hd : s.status.dvalid with
  | true => rw [truncBody_acceptTrunc hd]; exact .ended _ (h.acceptTrunc hd) ⟨rfl, rfl, rfl⟩
  | false => rw [truncBody_noDigest hd]; exact .raised _ _ h.invalidateTrunc ⟨rfl, rfl, rfl⟩ fun _ => ⟨rfl, rfl⟩

theorem fmtBody_keepsChain {s : State} (h : ChainOk s) : (fmtBody s).KeepsChain s := by
  rcases fmtBody_cases s with ⟨ht, h1, h10, hbody⟩ | ⟨c, hbody⟩ <;> rw [hbody]
  · exact .ended _ (h.acceptCode ht h1 h10) ⟨rfl, rfl, rfl⟩
  · exact .raised _ _ h.invalidateCode ⟨rfl, rfl, rfl⟩ fun _ => ⟨rfl, rfl⟩

theorem clrBody_keepsChain {s : State} (h : ChainOk s) : (clrBody s).KeepsChain s := by
  have hkey := h.invalidateKey
  have hkept : ResultsKept s.invalidateKey
      { s.invalidateKey.zeroBuffer .txt with txtlen := 0, ctrHi := 0, ctrLo := 0 } :=
    ⟨rfl, ⟨rfl, rfl⟩, rfl, rfl, rfl, rfl, rfl, rfl, fun a ha =>
      (s.invalidateKey.readByte_zeroBuffer .txt a).trans (if_neg (ha .txt (by simp)))⟩
  exact .ended _ (hkey.of_resultsKept hkept (hkey.mem.zero _ _)) ⟨rfl, rfl, rfl⟩

/-- R15, R201: the completion of such a body, from a busy state, in which no report stands. -/
theorem Body.KeepsChain.finish_inv {s : State} {b : Body} (h : b.KeepsChain s) (hdone : s.status.done = false)
    (herr : s.status.err = false) (hinfo : s.errinfo = ⟨0, 0, 0⟩) : b.finish.Inv := by
  cases h with
  | ended u hc hr =>
    have hsame : ResultsKept u u.completeOk := ⟨rfl, ⟨rfl, rfl⟩, rfl, rfl, rfl, rfl, rfl, rfl, fun _ _ => rfl⟩
    have herr' : u.completeOk.status.err = false := hr.err.trans herr
    have hinfo' : u.completeOk.errinfo = ⟨0, 0, 0⟩ := hr.errinfo.trans hinfo
    refine (hc.of_same hsame rfl).inv ⟨.inr herr', nofun, ?_, fun he => ?_, fun _ => ?_⟩
    · rw [hinfo']; decide
    · rw [herr'] at he; cases he
    · rw [hinfo']; exact ⟨rfl, rfl⟩
  | raised u r hc hr hpos =>
    have hsame : ResultsKept u (u.enterFault r) := ⟨rfl, ⟨rfl, rfl⟩, rfl, rfl, rfl, rfl, rfl, rfl, fun _ _ => rfl⟩
    have hnumber : r.code.number ≠ 0 ∧ r.code.number.toNat ≤ 7 := by cases r.code <;> decide
    exact (hc.of_same hsame rfl).inv ⟨.inl (hr.done.trans hdone), nofun, hnumber.2, fun _ => hnumber.1,
      fun hcode => hpos fun he => hcode (congrArg FaultCode.number he)⟩

/-- Every command's completion keeps the invariant. -/
theorem inv_exec {i : Instr} {s t : State} (hinv : s.Inv) (hb : s.status.busy = true)
    (h : exec i s = .next t) : t.Inv := by
  have hc := hinv.chainOk
  obtain ⟨hdone, herr, hinfo⟩ := hinv.busyClean hb
  have hkeeps : ∃ b : Body, b.KeepsChain s ∧ t = b.finish := by
    rw [exec_eq] at h
    injection h with h
    subst h
    cases i with
    | b32dec => exact ⟨_, b32decBody_keepsChain hc, rfl⟩
    | hmac => exact ⟨_, hmacBody_keepsChain hc, rfl⟩
    | trunc => exact ⟨_, truncBody_keepsChain hc, rfl⟩
    | fmt => exact ⟨_, fmtBody_keepsChain hc, rfl⟩
    | hotp =>
      have hstages := (hmacBody_keepsChain hc).andThen fun _ => truncBody_keepsChain
      exact ⟨_, hstages.andThen fun _ => fmtBody_keepsChain, rfl⟩
    | clr => exact ⟨_, clrBody_keepsChain hc, rfl⟩
  obtain ⟨b, hb, rfl⟩ := hkeeps
  exact hb.finish_inv hdone herr hinfo

/-! ### The steps -/

/-- A transaction keeps the memory in form: it writes a cell of `TXT` at most. -/
theorem memoryOk_transact {s : State} (h : MemoryOk s.params s.mem) (x : Transaction) :
    MemoryOk (s.transact x).params (s.transact x).mem := by
  cases transact_inv s x with
  | answer r ht | overrun r _ ht | issue v r _ ht | acknowledge v r _ _ ht | input c n hi lo r _ ht => rw [ht]; exact h
  | text i v r _ hi ht => rw [ht]; exact h.set (b := .txt) hi v

theorem reportOk_transact {s : State} (h : ReportOk s) (x : Transaction) : ReportOk (s.transact x) := by
  obtain ⟨hone, hbusy, hrange, hreported, hpos⟩ := h
  cases transact_inv s x with
  | answer r ht | overrun r _ ht | input c n hi lo r _ ht | text i v r _ hi ht =>
    rw [ht]; exact ⟨hone, hbusy, hrange, hreported, hpos⟩
  | issue v r _ ht =>
    rw [ht]
    exact ⟨.inl rfl, fun _ => ⟨rfl, rfl, rfl⟩, Nat.zero_le _, nofun, fun _ => ⟨rfl, rfl⟩⟩
  | acknowledge v r hb _ ht =>
    rw [ht]
    refine ⟨hone.imp (fun hd => ?_) (fun he => ?_), fun hb' => ?_, hrange, fun he => hreported ?_, hpos⟩
    · simp [Status.writeOneToClear, hd]
    · simp [Status.writeOneToClear, he]
    · exact absurd (hb'.symm.trans hb) (by decide)
    · exact (Bool.and_eq_true_iff.1 he).1

theorem inv_transact {s : State} (h : s.Inv) (x : Transaction) : (s.transact x).Inv :=
  (h.chainOk.of_resultsKept (resultsKept_transact s x) (memoryOk_transact h.chainOk.mem x)).inv
    (reportOk_transact h.reportOk x)

/-- The events to come are no part of the invariant. -/
theorem inv_schedule {s : State} (h : s.Inv) (es : List Event) : ({ s with schedule := es } : State).Inv :=
  have hsame : ResultsKept s { s with schedule := es } :=
    ⟨rfl, ⟨rfl, rfl⟩, rfl, rfl, rfl, rfl, rfl, rfl, fun _ _ => rfl⟩
  (h.chainOk.of_same hsame rfl).inv ⟨h.oneOutcome, h.busyClean, h.codeRange, h.reported, h.onlyCharPosition⟩

/-- Settles O50: at reset every level is cleared and no report stands. -/
theorem resetMeetsTheResultChain : Obligations.ResetMeetsTheResultChain := by
  intro p hp
  have hchain : ChainOk (State.resetWith p) := {
    mem := ⟨hp, Memory.wf_nil, nofun⟩
    key := KeyCleared.keyOk ⟨rfl, rfl, fun _ _ => rfl⟩
    digest := DigestCleared.digestOk ⟨rfl, fun _ _ => rfl⟩
    trunc := TruncCleared.truncOk ⟨rfl, rfl⟩
    code := CodeCleared.codeOk ⟨rfl, rfl, rfl, fun _ _ => rfl⟩ }
  exact hchain.inv ⟨.inl rfl, nofun, Nat.zero_le _, nofun, fun _ => ⟨rfl, rfl⟩⟩

/-- R198: the completion of an illegal word writes the report only. -/
theorem inv_illegalWord {s : State} (h : s.Inv) (hb : s.status.busy = true) : s.illegalWord.Inv := by
  obtain ⟨hdone, herr, hinfo⟩ := h.busyClean hb
  have hbody : (Body.raised s (.plain .eCmd)).KeepsChain s :=
    .raised s _ h.chainOk ⟨rfl, rfl, rfl⟩ fun _ => ⟨rfl, rfl⟩
  exact hbody.finish_inv hdone herr hinfo

/-- Settles O49: the cases of a step, each on the state with the event taken off the list. -/
theorem everyStepKeepsTheResultChain : Obligations.EveryStepKeepsTheResultChain := by
  intro s t hinv h
  cases step_inv h with
  | bus es x _ ht => rw [ht]; exact inv_transact (inv_schedule hinv es) x
  | reset es _ ht => rw [ht]; exact inv_schedule (resetMeetsTheResultChain s.params hinv.legal) es
  | idle es _ _ ht => rw [ht]; exact inv_schedule hinv es
  | complete es i _ hb _ ht => exact inv_exec (inv_schedule hinv es) hb ht
  | illegal es r _ hb _ ht => rw [ht]; exact inv_illegalWord (inv_schedule hinv es) hb

end Sys2Proof.Machine
end

section
/-! Family 40_base32: the output-length law (section 2), the fold of the whole text (section 1) and the texts that
hold no byte (section 3). -/

namespace Sys2Proof.Machine

/-! ### Which texts decode, and to how many bytes -/

/-- R94: the decoder fails on a cell outside the alphabet only. -/
theorem exists_b32Decode_ok {t : List Byte} (h : ∀ c ∈ stripPad t, b32Class c ≠ none) :
    ∃ out, b32Decode t = .ok out := by
  cases hd : b32Decode t with
  | ok out => exact ⟨out, rfl⟩
  | err chr pos =>
    obtain ⟨j, -, hj, hbad, -⟩ := (b32Loop_err ..).1 hd
    exact absurd hbad (h chr (List.mem_of_getElem? hj))

/-- Settles O26: the loop emits a byte per eight bits, and stops early on a cell outside the alphabet only. -/
theorem decodedLengthIsFiveEighths : Obligations.DecodedLengthIsFiveEighths := by
  refine fun t => ⟨fun out hd => ?_, exists_b32Decode_ok⟩
  have hlen := b32Loop_length _ _ _ _ _ _ (by decide) hd
  simpa using hlen

/-! ### The fold of a text -/

theorem foldCase_foldCase (c : Byte) : foldCase (foldCase c) = foldCase c := by
  apply BitVec.eq_of_toNat_eq
  rw [toNat_foldCase (foldCase c), toNat_foldCase c]
  split_ifs <;> omega

theorem b32Class_foldCase (c : Byte) : b32Class (foldCase c) = b32Class c := by
  unfold b32Class
  rw [foldCase_foldCase]

/-- R91, R92: `'='` folds to itself, and no other cell folds to it. -/
theorem foldCase_eq_padChar_iff (c : Byte) : foldCase c = padChar ↔ c = padChar := by
  have hpad : padChar.toNat = 0x3D := rfl
  rw [← BitVec.toNat_inj, ← BitVec.toNat_inj, toNat_foldCase, hpad]
  split <;> omega

theorem stripPad_map_foldCase (t : List Byte) : stripPad (t.map foldCase) = (stripPad t).map foldCase := by
  induction t with
  | nil => rfl
  | cons c cs ih =>
    rw [List.map_cons, stripPad_cons, stripPad_cons, ih]
    simp only [List.map_eq_nil_iff, foldCase_eq_padChar_iff]
    split
    · rfl
    · rw [List.map_cons]

/-- R94: a folded text runs through the loop as the text does; only the reported character differs. -/
theorem b32Loop_map_foldCase (cs : List Byte) (i acc nbits : Nat) (out r : List Byte) :
    b32Loop (cs.map foldCase) i acc nbits out = .ok r ↔ b32Loop cs i acc nbits out = .ok r := by
  induction cs generalizing i acc nbits out with
  | nil => rfl
  | cons c cs ih =>
    rw [List.map_cons]
    cases hc : b32Class c with
    | none =>
      rw [b32Loop_cons_none hc, b32Loop_cons_none ((b32Class_foldCase c).trans hc)]
      simp only [reduceCtorEq]
    | some v =>
      rw [b32Loop_cons_some hc, b32Loop_cons_some ((b32Class_foldCase c).trans hc)]
      split <;> exact ih ..

/-- Settles O27: the fold passes through the strip, and the loop looks at the class of the folded cell. -/
theorem caseDoesNotChangeTheKey : Obligations.CaseDoesNotChangeTheKey := by
  intro t out
  rw [b32Decode, stripPad_map_foldCase]
  exact b32Loop_map_foldCase ..

/-! ### Texts of no bytes -/

/-- Section 3: no character, or one of the alphabet, gives fewer than eight bits. -/
theorem b32Decode_eq_ok_nil {t : List Byte} (hlen : (stripPad t).length ≤ 1)
    (h : ∀ c ∈ stripPad t, b32Class c ≠ none) : b32Decode t = .ok [] := by
  obtain ⟨out, hout⟩ := exists_b32Decode_ok h
  have hbytes := b32Loop_length _ _ _ _ _ _ (by decide) hout
  have hnil : out.length = 0 := by simp only [List.length_nil] at hbytes; omega
  rw [hout, List.length_eq_zero_iff.1 hnil]

/-- R94: what the loop decodes is all in the alphabet. -/
theorem b32Class_ne_none_of_b32Loop_ok {cs : List Byte} {i acc nbits : Nat} {out r : List Byte}
    (h : b32Loop cs i acc nbits out = .ok r) : ∀ c ∈ cs, b32Class c ≠ none := by
  induction cs generalizing i acc nbits out with
  | nil => nofun
  | cons c cs ih =>
    cases hc : b32Class c with
    | none => rw [b32Loop_cons_none hc] at h; cases h
    | some v =>
      have hrest : ∀ x ∈ cs, b32Class x ≠ none := by
        rw [b32Loop_cons_some hc] at h
        split at h <;> exact ih h
      exact List.forall_mem_cons.2 ⟨by simp [hc], hrest⟩

/-- Section 3: the character check comes first. -/
theorem exists_b32Decode_err {t : List Byte} (h : ∃ c ∈ stripPad t, b32Class c = none) :
    ∃ chr pos, b32Decode t = .err chr pos := by
  obtain ⟨c, hc, hbad⟩ := h
  cases hd : b32Decode t with
  | err chr pos => exact ⟨chr, pos, rfl⟩
  | ok out => exact absurd hbad (b32Class_ne_none_of_b32Loop_ok hd c hc)

/-- Settles O31: the decoder answers no bytes, or the error of the character check. -/
theorem textOfNoBytesIsRefused : Obligations.TextOfNoBytesIsRefused := by
  intro s hp ht hlen
  by_cases hall : ∀ c ∈ stripPad s.text, b32Class c ≠ none
  · have hbody := b32decBody_empty hp ht (b32Decode_eq_ok_nil hlen hall)
    exact ⟨_, exec_b32dec_raised hbody, rfl, rfl, fun _ => rfl, fun ⟨c, hc, hbad⟩ => absurd hbad (hall c hc)⟩
  · have hbad : ∃ c ∈ stripPad s.text, b32Class c = none := by push Not at hall; exact hall
    obtain ⟨chr, pos, hdec⟩ := exists_b32Decode_err hbad
    have hbody := b32decBody_badChar hp ht hdec
    exact ⟨_, exec_b32dec_raised hbody, rfl, rfl, fun h => absurd h hall, fun _ => rfl⟩

end Sys2Proof.Machine
end

section
/-! Family 41_hmac_sha1: the padding (R112), the message schedule (R114) and the sizes of the key block and of a digest
(R117, R118). -/

namespace Sys2Proof.Machine

/-! ### The padding -/

/-- R112: 9 bytes at least are added, and the sum is a whole number of blocks. -/
theorem length_shaPad (m : List Byte) : (shaPad m).length = m.length + 9 + padZeros m.length := by
  simp only [shaPad, List.length_append, List.length_cons, List.length_nil, List.length_replicate,
    length_bytesOfCounter]
  omega

/-- R112: what stands behind the message. -/
theorem shaPad_eq_append (m : List Byte) : shaPad m = m ++ (0x80 ::
    (List.replicate (padZeros m.length) 0x00 ++ bytesOfCounter (BitVec.ofNat 64 (8 * m.length)))) := by
  simp only [shaPad, List.append_assoc, List.cons_append, List.nil_append]

theorem getD_shaPad (m : List Byte) {j : Nat} (h : m.length < j) (d : Byte) : (shaPad m).getD j d =
    (List.replicate (padZeros m.length) 0x00 ++ bytesOfCounter (BitVec.ofNat 64 (8 * m.length))).getD
      (j - m.length - 1) d := by
  have hj : j - m.length = j - m.length - 1 + 1 := by omega
  rw [shaPad_eq_append, List.getD_append_right _ _ _ _ (Nat.le_of_lt h), hj,
    List.getD_cons_succ, Nat.add_sub_cancel]

/-- Settles O33: the four parts of the padded message, one behind the other. -/
theorem paddingFillsWholeBlocks : Obligations.PaddingFillsWholeBlocks := by
  intro m
  have hlen := length_shaPad m
  refine ⟨?blocks, ?message, ?marker, fun j hlo hhi => ?zeros, ?bitLength⟩
  case blocks => rw [hlen, padZeros]; omega
  case message => rw [shaPad_eq_append, List.take_left]
  case marker => rw [shaPad_eq_append, List.getD_append_right _ _ _ _ (Nat.le_refl _), Nat.sub_self,
      List.getD_cons_zero]
  case zeros =>
    have hj : j - m.length - 1 < padZeros m.length := by omega
    rw [getD_shaPad m hlo, List.getD_append _ _ _ _ (by rwa [List.length_replicate]), List.getD_replicate _ hj]
  case bitLength =>
    rw [shaPad]
    exact List.drop_left' (by simp only [List.length_append, length_bytesOfCounter, Nat.add_sub_cancel])

/-! ### The message schedule -/

/-- R10, R114: a word per four bytes, big-endian. -/
theorem wordsOfBytes_words (l : List Byte) : (wordsOfBytes l).length = l.length / 4 ∧
    ∀ t, t < l.length / 4 → (wordsOfBytes l).getD t 0 =
      be32 (l.getD (4 * t) 0) (l.getD (4 * t + 1) 0) (l.getD (4 * t + 2) 0) (l.getD (4 * t + 3) 0) := by
  induction l using wordsOfBytes.induct with
  | case1 b0 b1 b2 b3 rest ih =>
    obtain ⟨hlen, hwords⟩ := ih
    rw [wordsOfBytes]
    constructor
    · simp only [List.length_cons, hlen]; omega
    · intro t ht
      cases t with
      | zero => rfl
      | succ t =>
        simp only [List.length_cons] at ht
        rw [List.getD_cons_succ, hwords t (by omega)]
        rfl
  | case2 l h =>
    have hshort : l.length < 4 := by
      match l, h with
      | [], _ | [_], _ | [_, _], _ | [_, _, _], _ => simp
      | b0 :: b1 :: b2 :: b3 :: rest, h => exact absurd rfl (h b0 b1 b2 b3 rest)
    have hnil : wordsOfBytes l = [] := by
      rw [wordsOfBytes]; exact h
    rw [hnil]
    exact ⟨by simp only [List.length_nil]; omega, fun t ht => by omega⟩

/-- R114: extending a schedule, read oldest first, keeps the words it has. -/
theorem getD_scheduleExtend_of_lt (n : Nat) {ws : List Word} {t : Nat} (h : t < ws.length) :
    (scheduleExtend n ws).reverse.getD t 0 = ws.reverse.getD t 0 := by
  induction n generalizing ws with
  | zero => rfl
  | succ n ih =>
    rw [scheduleExtend, ih (by rw [List.length_cons]; omega), List.reverse_cons,
      List.getD_append _ _ _ _ (by rwa [List.length_reverse])]

/-- R114: a word `k` places before the next one, in the schedule read newest first. -/
theorem getD_scheduleExtend_before (n : Nat) {ws : List Word} {k : Nat} (h : k < ws.length) :
    (scheduleExtend n ws).reverse.getD (ws.length - 1 - k) 0 = ws.getD k 0 := by
  rw [getD_scheduleExtend_of_lt n (by omega), List.getD_reverse _ (by omega)]
  congr 1
  omega

/-- R114: the recurrence. -/
theorem getD_scheduleExtend (n : Nat) {ws : List Word} (h16 : 16 ≤ ws.length) {t : Nat} (hlo : ws.length ≤ t)
    (hhi : t < ws.length + n) :
    (scheduleExtend n ws).reverse.getD t 0 = rotl 1
      ((scheduleExtend n ws).reverse.getD (t - 3) 0 ^^^ (scheduleExtend n ws).reverse.getD (t - 8) 0 ^^^
        (scheduleExtend n ws).reverse.getD (t - 14) 0 ^^^ (scheduleExtend n ws).reverse.getD (t - 16) 0) := by
  induction n generalizing ws with
  | zero => omega
  | succ n ih =>
    by_cases ht : t = ws.length
    · subst ht
      have hnew := getD_scheduleExtend_before n (ws := scheduleNext ws :: ws) (k := 0) (by simp)
      have hold {k : Nat} (hk : k < ws.length) := getD_scheduleExtend_before (n + 1) hk
      have h2 := hold (k := 2) (by omega)
      have h7 := hold (k := 7) (by omega)
      have h13 := hold (k := 13) (by omega)
      have h15 := hold (k := 15) (by omega)
      rw [Nat.sub_sub] at h2 h7 h13 h15
      rw [h2, h7, h13, h15]
      exact hnew
    · exact ih (ws := scheduleNext ws :: ws) (by simp; omega) (by simp; omega) (by simp; omega)

/-- Settles O34: the sixteen words of the block, and the recurrence of the extension. -/
theorem scheduleFollowsTheRecurrence : Obligations.ScheduleFollowsTheRecurrence := by
  intro block hblock
  obtain ⟨hlen, hwords⟩ := wordsOfBytes_words block
  rw [hblock] at hlen hwords
  have hrev : (wordsOfBytes block).reverse.length = 16 := by rw [List.length_reverse, hlen]
  refine ⟨?_, fun t ht => ?_, fun t hlo hhi => ?_⟩
  · rw [schedule, List.length_reverse, length_scheduleExtend, hrev]
  · rw [schedule, getD_scheduleExtend_of_lt 64 (by omega), List.reverse_reverse]
    exact hwords t ht
  · exact getD_scheduleExtend 64 (by omega) (by omega) (by omega)

/-! ### Sizes -/

theorem keyBlock_of_le {k : List Byte} (h : k.length ≤ 64) : keyBlock k = k ++ List.replicate (64 - k.length) 0x00 := by
  simp only [keyBlock, Config.shaBlock, if_neg (Nat.not_lt.2 h)]

/-- R118: a longer key is hashed first. -/
theorem keyBlock_of_lt {k : List Byte} (h : 64 < k.length) : keyBlock k = keyBlock (sha1 k) := by
  rw [keyBlock_of_le (k := sha1 k) (by rw [length_sha1]; decide)]
  simp only [keyBlock, Config.shaBlock, if_pos h]

theorem length_keyBlock_of_le {k : List Byte} (h : k.length ≤ 64) : (keyBlock k).length = 64 := by
  rw [keyBlock_of_le h, List.length_append, List.length_replicate]
  omega

theorem length_keyBlock (k : List Byte) : (keyBlock k).length = 64 := by
  rcases Nat.lt_or_ge 64 k.length with h | h
  · rw [keyBlock_of_lt h]
    exact length_keyBlock_of_le (by rw [length_sha1]; decide)
  · exact length_keyBlock_of_le h

/-- Settles O35: the key block by its two cases, and the digests' own lengths. -/
theorem keyBlockAndDigestSizes : Obligations.KeyBlockAndDigestSizes := by
  intro k m
  refine ⟨length_keyBlock k, length_hmacSha1 k m, length_sha1 m, fun h => ⟨?_, fun j hlo hhi => ?_⟩, keyBlock_of_lt⟩
  · rw [keyBlock_of_le h, List.take_left]
  · rw [keyBlock_of_le h, List.getD_append_right _ _ _ _ hlo, List.getD_replicate _ (by omega)]

end Sys2Proof.Machine
end

section
/-! Family 42_truncate_format, the laws of rendering (R148): a rendered number reads back, and codes nest. -/

namespace Sys2Proof.Machine

/-- R145: a rendering is that of all digits but the last, and the last digit. -/
theorem renderDec_succ (v n : Nat) :
    renderDec v (n + 1) = renderDec (v / 10) n ++ [BitVec.ofNat 8 (0x30 + v % 10)] := by
  have hupper : ∀ i ∈ List.range n, (BitVec.ofNat 8 (0x30 + v / 10 ^ (n + 1 - 1 - i) % 10) : Byte) =
      BitVec.ofNat 8 (0x30 + v / 10 / 10 ^ (n - 1 - i) % 10) := fun i hi => by
    have hexp : n + 1 - 1 - i = n - 1 - i + 1 := by have := List.mem_range.1 hi; omega
    rw [hexp, Nat.pow_succ', Nat.div_div_eq_div_mul]
  rw [renderDec, List.range_succ, List.map_append, List.map_congr_left hupper, List.map_singleton,
    Nat.add_sub_cancel, Nat.sub_self, Nat.pow_zero, Nat.div_one, renderDec]

/-- R148 (c): read as a decimal number, a rendering gives the number. -/
theorem foldl_renderDec {v n : Nat} (h : v < 10 ^ n) :
    (renderDec v n).foldl (fun a c => a * 10 + (c.toNat - 0x30)) 0 = v := by
  induction n generalizing v with
  | zero => exact (Nat.lt_one_iff.1 h).symm
  | succ n ih =>
    have hupper : v / 10 < 10 ^ n := by rw [Nat.pow_succ] at h; omega
    rw [renderDec_succ, List.foldl_append, ih hupper, List.foldl_cons, List.foldl_nil, toNat_digitChar]
    omega

/-- R144: a digit below place `n` is the same before and after the reduction by `10 ^ n`. -/
theorem digit_mod_pow (x : Nat) {n k : Nat} (h : k < n) : x % 10 ^ n / 10 ^ k % 10 = x / 10 ^ k % 10 := by
  have hsplit : 10 ^ n = 10 ^ k * 10 ^ (n - k) := by rw [← Nat.pow_add, Nat.add_sub_cancel' (Nat.le_of_lt h)]
  have hdvd : 10 ∣ 10 ^ (n - k) := dvd_pow_self 10 (by omega)
  rw [hsplit, Nat.mod_mul_right_div_self, Nat.mod_mod_of_dvd _ hdvd]

/-- R148 (d): the shorter code is the end of the longer one. -/
theorem renderDec_reduceCode_drop (p : BitVec 31) {n m : Nat} (h : n < m) :
    renderDec (reduceCode p n) n = (renderDec (reduceCode p m) m).drop (m - n) := by
  have hlen : (renderDec (reduceCode p n) n).length = ((renderDec (reduceCode p m) m).drop (m - n)).length := by
    rw [List.length_drop, length_renderDec, length_renderDec]
    omega
  apply List.ext_getElem hlen
  intro i hi _
  rw [length_renderDec] at hi
  have hplace : m - 1 - (m - n + i) = n - 1 - i := by omega
  simp only [List.getElem_drop, renderDec, List.getElem_map, List.getElem_range, reduceCode, hplace]
  rw [digit_mod_pow _ (by omega), digit_mod_pow _ (by omega)]

/-- Settles O41: the two laws. -/
theorem renderingReadsBackAndNests : Obligations.RenderingReadsBackAndNests :=
  ⟨fun _ _ => foldl_renderDec, fun p _ _ => renderDec_reduceCode_drop p⟩

end Sys2Proof.Machine
end

section
/-! Family 30_encoding: the command words and the six commands, one for one (section 3). -/

namespace Sys2Proof

/-- Settles O2: a word that decodes is the command's encoding (`encode_of_decode`), and the encoding decodes back. -/
theorem decodedWordsAreExactlyTheEncodedCommands : Obligations.DecodedWordsAreExactlyTheEncodedCommands :=
  fun _ i => ⟨encode_of_decode, fun hw => hw ▸ decode_encode i⟩

/-- Settles O3: the encodings decode back, and the table's seven words are evaluated. -/
theorem encodedCommandDecodesBack : Obligations.EncodedCommandDecodesBack :=
  ⟨fun i _ => decode_encode i, rfl, rfl, rfl, rfl, rfl, rfl, rfl⟩

/-- A row's number as a word: what lies above 32 bits is cut off either way. -/
theorem ofNat_mod_word (w : Nat) : BitVec.ofNat 32 (w % 2 ^ 32) = BitVec.ofNat 32 w :=
  BitVec.eq_of_toNat_eq (by simp)

/-- A table word that decodes to a command is latched as a word that does. -/
theorem decode_of_decodeTableWord {w : Nat} {i : Instr} (h : decodeTableWord 32 w = some i) :
    decode (BitVec.ofNat 32 w) = .command i := by
  rw [decodeTableWord, if_pos (Nat.le_refl 32), ofNat_mod_word] at h
  cases hd : decode (BitVec.ofNat 32 w) with
  | command j => rw [hd] at h; exact congrArg Decoded.command (Option.some.inj h)
  | illegal r => rw [hd] at h; cases h

end Sys2Proof
end

section
/-! Family 00_scope, section 5: what a step runs, that it always answers, that a busy window ends, and what the host's
transactions in it can do; and which steps change `OVR` (R208) and the key (10_state.md section 3). -/

namespace Sys2Proof.Machine

/-! ### The core's turn -/

/-- R15: the core's turn on a busy block runs the latched command. -/
theorem step_command {s : State} {es : List Event} {i : Instr} (hc : CoreNext s es) (hb : s.status.busy = true)
    (hd : decode s.cmdlatch = .command i) : step s = exec i { s with schedule := es } := by
  rw [step_core hc]
  simp only [coreTurn, coreComplete, hb, hd, if_true]

/-- R211: the core's turn on an idle block changes nothing. -/
theorem step_idle {s : State} {es : List Event} (hc : CoreNext s es) (hb : s.status.busy = false) :
    step s = .next { s with schedule := es } := by
  rw [step_core hc]
  simp only [coreTurn, hb, Bool.false_eq_true, if_false]

/-- Settles O6: each of the four events. -/
theorem stepRunsTheDecodedCommand : Obligations.StepRunsTheDecodedCommand :=
  fun _ _ => ⟨fun _ => step_command, step_idle, fun _ => step_bus, step_hardReset⟩

/-- Settles O7: the presented word is latched, and the core's turn is scheduled next. -/
theorem presentedCommandRunsNext : Obligations.PresentedCommandRunsNext := by
  intro s w i hw
  rw [State.withFetchWord, ofNat_mod_word]
  exact step_command (s := s.presentCommand (BitVec.ofNat 32 w)) (es := s.schedule) (.inl rfl) rfl
    (decode_of_decodeTableWord hw)

/-- R15, R201: what a completion leaves, of a command or of an illegal word. -/
theorem step_completes {s t : State} {es : List Event} (hc : CoreNext s es) (hb : s.status.busy = true)
    (h : step s = .next t) :
    t.status.busy = false ∧ (t.status.done || t.status.err) = true ∧ t.cfg = s.cfg := by
  cases hd : decode s.cmdlatch with
  | command i =>
    rw [step_command hc hb hd] at h
    exact ⟨(exec_over h).1, (exec_over h).2, (exec_control h).2⟩
  | illegal r =>
    have hw : ∀ i, s.cmdlatch ≠ encode i := fun i hi => by rw [hi, decode_encode] at hd; cases hd
    rw [step_illegalWord hc hb hw] at h
    injection h with h
    subst h
    exact ⟨rfl, Bool.or_true _, rfl⟩

/-- Settles O20: `BUSY` masks `irq` before, and the completion leaves `DONE` or `ERR`. -/
theorem completionRaisesTheInterruptLine : Obligations.CompletionRaisesTheInterruptLine := by
  intro s t es hc hb h
  obtain ⟨hidle, hreport, hcfg⟩ := step_completes hc hb h
  constructor
  · simp [State.irq, hb]
  · simp [State.irq, hidle, hreport, hcfg]

/-! ### Runs -/

/-- Settles O9: by induction on the number of steps, each of which answers. -/
theorem theBlockNeverHalts : Obligations.TheBlockNeverHalts := by
  intro k
  induction k with
  | zero => exact fun s => ⟨s, rfl⟩
  | succ k ih =>
    intro s
    obtain ⟨u, hu⟩ := step_next s
    rw [runSteps_succ hu]
    exact ih u

/-- R17: the core's turn ends a busy window in one step. -/
theorem exists_runSteps_one_idle {s : State} {es : List Event} (hc : CoreNext s es) (hb : s.status.busy = true) :
    ∃ t, runSteps 1 s = .next t ∧ t.status.busy = false := by
  obtain ⟨t, ht⟩ := step_next s
  exact ⟨t, (runSteps_succ ht 0).trans (runSteps_zero t), (step_completes hc hb ht).1⟩

/-- R17: a busy window ends at the first scheduled event that is no transaction, or at the core's turn behind them. -/
theorem exists_runSteps_idle (es : List Event) {s : State} (hs : s.schedule = es) (hb : s.status.busy = true) :
    ∃ k t, k ≤ es.length + 1 ∧ runSteps k s = .next t ∧ t.status.busy = false := by
  induction es generalizing s with
  | nil =>
    obtain ⟨t, hrun, hidle⟩ := exists_runSteps_one_idle (.inr ⟨hs, rfl⟩) hb
    exact ⟨1, t, Nat.le_refl _, hrun, hidle⟩
  | cons e es ih =>
    cases e with
    | core =>
      obtain ⟨t, hrun, hidle⟩ := exists_runSteps_one_idle (.inl hs) hb
      exact ⟨1, t, Nat.le_add_left .., hrun, hidle⟩
    | hardReset => exact ⟨1, _, Nat.le_add_left .., runSteps_succ (step_hardReset hs) 0, rfl⟩
    | bus x =>
      obtain ⟨k, t, hk, hrun, hidle⟩ := ih (s := State.transact { s with schedule := es } x)
        (transact_schedule ..) (transact_busy (s := { s with schedule := es }) hb x)
      exact ⟨k + 1, t, Nat.succ_le_succ hk, (runSteps_succ (step_bus hs) k).trans hrun, hidle⟩

/-- Settles O10: along the events to come. -/
theorem issuedCommandIsEventuallyOver : Obligations.IssuedCommandIsEventuallyOver :=
  fun _ => exists_runSteps_idle _ rfl

/-! ### Host transactions in a busy window -/

/-- What host transactions can change in a busy window: `OVR` and the reply. -/
def State.withTraffic (s : State) (ovr : Bool) (r : Option Reply) : State :=
  { s with status := { s.status with ovr := ovr }, reply := r }

theorem transact_withTraffic {s : State} (hb : s.status.busy = true) (x : Transaction) :
    ∃ b r, s.transact x = s.withTraffic b r ∧ (s.status.ovr = true → b = true) := by
  cases transact_inv s x with
  | answer r ht => exact ⟨s.status.ovr, r, ht, id⟩
  | overrun r _ ht => exact ⟨true, r, ht, fun _ => rfl⟩
  | issue _ _ hb' _ | acknowledge _ _ hb' _ _ | input _ _ _ _ _ hb' _ | text _ _ _ hb' _ _ =>
    rw [hb] at hb'; cases hb'

/-- A body's state, replaced. -/
def Body.map (f : State → State) : Body → Body
  | .ended s => .ended (f s)
  | .raised s r => .raised (f s) r

/-- R16: a body neither reads `OVR` or the reply nor writes them. -/
def IgnoresTraffic (body : State → Body) : Prop :=
  ∀ s b r, body (s.withTraffic b r) = (body s).map (·.withTraffic b r)

theorem IgnoresTraffic.andThen {f g : State → Body} (hf : IgnoresTraffic f) (hg : IgnoresTraffic g) :
    IgnoresTraffic fun s => (f s).andThen g := fun s b r => by
  simp only [hf s b r]
  cases f s with
  | ended u => exact hg u b r
  | raised u x => rfl

theorem ignoresTraffic_b32decBody : IgnoresTraffic b32decBody := fun s b r => by
  have htext : (s.withTraffic b r).invalidateKey.text = s.invalidateKey.text := rfl
  have hlen : (s.withTraffic b r).txtlen = s.txtlen := rfl
  have hmax : (s.withTraffic b r).params = s.params := rfl
  simp only [b32decBody, State.invalidateKey_params, State.invalidateKey_txtlen, htext, hlen, hmax]
  by_cases ht : s.params.textMax < s.txtlen.toNat
  · simp only [ht, if_true]; rfl
  · simp only [ht, if_false]
    rcases b32Decode s.invalidateKey.text with (_ | _) | _ <;> rfl

theorem ignoresTraffic_hmacBody : IgnoresTraffic hmacBody := fun s b r => by
  cases hkey : s.status.keyvalid with
  | true => rw [hmacBody_key (s := s.withTraffic b r) hkey, hmacBody_key hkey]; rfl
  | false => rw [hmacBody_noKey (s := s.withTraffic b r) hkey, hmacBody_noKey hkey]; rfl

theorem ignoresTraffic_truncBody : IgnoresTraffic truncBody := fun s b r => by
  cases hd : s.status.dvalid with
  | true => rw [truncBody_digest (s := s.withTraffic b r) hd, truncBody_digest hd]; rfl
  | false => rw [truncBody_noDigest (s := s.withTraffic b r) hd, truncBody_noDigest hd]; rfl

theorem ignoresTraffic_fmtBody : IgnoresTraffic fmtBody := fun s b r => by
  cases ht : s.status.tvalid with
  | false => rw [fmtBody_noTrunc (s := s.withTraffic b r) ht, fmtBody_noTrunc ht]; rfl
  | true =>
    by_cases hd : s.cfg.digits.toNat = 0 ∨ 10 < s.cfg.digits.toNat
    · rw [fmtBody_digits (s := s.withTraffic b r) ht hd, fmtBody_digits ht hd]; rfl
    · have h1 : 1 ≤ s.cfg.digits.toNat := by omega
      have h10 : s.cfg.digits.toNat ≤ 10 := by omega
      rw [fmtBody_ok (s := s.withTraffic b r) ht h1 h10, fmtBody_ok ht h1 h10]; rfl

/-- R16: a command leaves the same state under the traffic, but for `OVR` and the reply. -/
theorem exec_withTraffic {i : Instr} {s t : State} (h : exec i s = .next t) (b : Bool) (r : Option Reply) :
    exec i (s.withTraffic b r) = .next (t.withTraffic b r) := by
  have hfinish (body : Body) : (body.map (·.withTraffic b r)).finish = body.finish.withTraffic b r := by
    cases body <;> rfl
  rw [exec_eq] at h
  injection h with h
  rw [exec_eq, ← h]
  cases i with
  | b32dec => simp only [ignoresTraffic_b32decBody s b r, hfinish]
  | hmac => simp only [ignoresTraffic_hmacBody s b r, hfinish]
  | trunc => simp only [ignoresTraffic_truncBody s b r, hfinish]
  | fmt => simp only [ignoresTraffic_fmtBody s b r, hfinish]
  | hotp =>
    have hhotp : IgnoresTraffic hotpBody :=
      (ignoresTraffic_hmacBody.andThen ignoresTraffic_truncBody).andThen ignoresTraffic_fmtBody
    simp only [hhotp s b r, hfinish]
  | clr => rfl

/-- R16, R62: the transactions one by one, then the completion. -/
theorem runSteps_busyWindow {i : Instr} (ts : List Transaction) {s t : State} (hb : s.status.busy = true)
    (hd : decode s.cmdlatch = .command i) (hs : s.schedule = ts.map .bus ++ [.core])
    (h : exec i { s with schedule := [] } = .next t) :
    ∃ b r, runSteps (ts.length + 1) s = .next (t.withTraffic b r) ∧ (s.status.ovr = true → b = true) := by
  induction ts generalizing s t with
  | nil =>
    have hstep : step s = .next t := (step_command (.inl hs) hb hd).trans h
    exact ⟨t.status.ovr, t.reply, runSteps_succ hstep 0, (exec_control h).1.ovr.trans⟩
  | cons x ts ih =>
    have hstep := step_bus (x := x) (es := ts.map .bus ++ [.core]) hs
    obtain ⟨b, r, hx, hovr⟩ := transact_withTraffic (s := { s with schedule := ts.map .bus ++ [.core] }) hb x
    rw [hx] at hstep
    obtain ⟨b', r', hrun, hovr'⟩ :=
      ih (s := State.withTraffic { s with schedule := ts.map .bus ++ [.core] } b r) hb hd rfl (exec_withTraffic h b r)
    exact ⟨b', r', (runSteps_succ hstep _).trans hrun, fun ho => hovr' (hovr ho)⟩

/-- Settles O23: the command answers, and the traffic before its completion shows in `OVR` and the reply only. -/
theorem busyWindowTrafficCannotChangeTheResult : Obligations.BusyWindowTrafficCannotChangeTheResult := by
  intro s ts i hb hd hs
  have ht := exec_eq i { s with schedule := [] }
  obtain ⟨b, r, hrun, hovr⟩ := runSteps_busyWindow ts hb hd hs ht
  exact ⟨_, _, ht, hrun, ⟨b, r, rfl⟩, hovr⟩

/-! ### What clears `OVR`, and what changes the key -/

/-- R208: of the transactions only a write of 1 to bit 7 of `STATUS`, while idle, clears `OVR`. -/
theorem ovr_transact {s : State} {x : Transaction} (ho : s.status.ovr = true) (hc : (s.transact x).status.ovr = false) :
    ∃ v, x = .write 0x0004 (.word v) ∧ s.status.busy = false ∧ v.getLsbD 7 = true := by
  cases transact_inv s x with
  | answer r ht | issue v r _ ht | input c n hi lo r _ ht | text i v r _ _ ht =>
    rw [ht] at hc
    exact absurd (ho.symm.trans hc) (by decide)
  | overrun r _ ht => rw [ht] at hc; cases hc
  | acknowledge v r hb hx ht =>
    rw [ht] at hc
    refine ⟨v, hx, hb, ?_⟩
    simpa [Status.writeOneToClear, ho] using hc

/-- Settles O22: commands and the idle core's turn keep `OVR`. -/
theorem overrunIsSticky : Obligations.OverrunIsSticky := by
  intro s t h ho hc
  cases step_inv h with
  | bus es x hs ht =>
    rw [ht] at hc
    obtain ⟨v, rfl, hb, hbit⟩ := ovr_transact (s := { s with schedule := es }) ho hc
    exact .inr ⟨v, es, hs, hb, hbit⟩
  | reset es hs _ => exact .inl ⟨es, hs⟩
  | idle es _ _ ht => rw [ht] at hc; exact absurd (ho.symm.trans hc) (by decide)
  | complete es i _ _ _ ht => exact absurd (ho.symm.trans ((exec_control ht).1.ovr.symm.trans hc)) (by decide)
  | illegal es r _ _ _ ht => rw [ht] at hc; exact absurd (ho.symm.trans hc) (by decide)

/-- The key is unchanged where its registers are and no changed byte is in `KEY`. -/
theorem key_unchanged {s t : State} {bs : List Buffer} (hp : s.params.Legal) (hkey : SameKey s t)
    (hbytes : SameBytesOutside s t bs) (hb : Buffer.key ∉ bs) :
    ¬(t.status.keyvalid ≠ s.status.keyvalid ∨ t.keylen ≠ s.keylen ∨
      ∃ j, j < s.params.keyMax ∧ t.cell .key j ≠ s.cell .key j) := by
  rintro (h | h | ⟨j, hj, h⟩)
  · exact h hkey.keyvalid
  · exact h hkey.keylen
  · exact h (cell_of_sameBytesOutside hbytes hp hb hj)

/-- Settles O47: transactions, illegal words and the four other commands leave the key unchanged. -/
theorem onlyDecodeClearAndResetChangeTheKey : Obligations.OnlyDecodeClearAndResetChangeTheKey := by
  intro s t hp h hchange
  cases step_inv h with
  | bus es x _ ht =>
    have hkept := resultsKept_transact { s with schedule := es } x
    rw [← ht] at hkept
    exact absurd hchange (key_unchanged (s := { s with schedule := es }) hp hkept.key hkept.bytes (by decide))
  | reset es hs _ => exact .inl ⟨es, hs⟩
  | idle es _ _ ht | illegal es r _ _ _ ht =>
    rw [ht] at hchange
    exact absurd hchange (key_unchanged (bs := []) hp ⟨rfl, rfl⟩ (fun _ _ => rfl) (by decide))
  | complete es i hc hb hd ht =>
    have hlatch := encode_of_decode hd
    by_cases hi : i = .b32dec ∨ i = .clr
    · exact .inr ⟨es, hc, hb, hi.imp (hlatch.trans <| congrArg encode ·) (hlatch.trans <| congrArg encode ·)⟩
    · obtain ⟨hdec, hclr⟩ := not_or.1 hi
      have hkept := keyKept_of_exec hdec hclr ht
      exact absurd hchange (key_unchanged (s := { s with schedule := es }) hp hkept.key hkept.bytes (by decide))

end Sys2Proof.Machine
end

section
/-! Family 45_host_sequences: the counters of the validation window (R178, R181). -/

namespace Sys2Proof.Driver

/-- R178: an instant `d` steps later has the counter `d` more. -/
theorem timeCounter_add_mul {n : Nat} (hn : 0 < n) (x d : Int) : timeCounter n (x + d * n) = timeCounter n x + d :=
  Int.add_mul_fdiv_right x d (Int.natCast_ne_zero.mpr hn.ne')

/-- R178: by a positive step, floor division is the division whose remainder is not negative. -/
theorem timeCounter_eq_ediv (n : Nat) (x : Int) : timeCounter n x = x / n :=
  Int.fdiv_eq_ediv_of_nonneg x (Int.natCast_nonneg n)

/-- Settles O52: floor division by a positive step, and the two's complement of -1. -/
theorem windowCountersAreAdjacent : Obligations.WindowCountersAreAdjacent := by
  refine ⟨fun n x d hn => timeCounter_add_mul hn x d, fun n x hn => ?_, by decide⟩
  have hpos : (0 : Int) < n := Int.natCast_pos.mpr hn
  rw [timeCounter_eq_ediv]
  exact ⟨Int.ediv_mul_le x hpos.ne', Int.lt_ediv_add_one_mul_self x hpos⟩

end Sys2Proof.Driver
end
